-- ==== Sys2Proof/Word.lean ====
section
/-! DEFINITION. The words of the block: the 64-bit command word (30_encoding R70), the byte (memory reads, payloads,
characters; 20_memory R54, 41_nibble R130) and the 32-bit string pointer (30_encoding R71). -/

namespace Sys2Proof

/-- A command word, bit 0 least significant (30_encoding R70). -/
abbrev Word := BitVec 64

/-- An 8-bit value: a payload, a packet, a character, a byte of string memory. -/
abbrev Byte := BitVec 8

/-- A string pointer PTR = ARG, 32 bits (30_encoding R71, 10_state R33). -/
abbrev Addr := BitVec 32

end Sys2Proof
end

