-- ==== Sys2Proof/Syntax.lean ====
section
/-! DEFINITION. The nine commands as constructors, the nine rows of the opcode map as an enumeration, and the fields of the
one format CMD64. Every operand has exactly the width its field has, so a term of `Instr` is well formed by its type. -/

namespace Sys2Proof

/-- The commands of 30_encoding R72 with their operands (R71). One constructor per row of spec/opcode_table.json. -/
inductive Instr where
  /-- I2C_OUT b (40_transport R103). The whole 32-bit ARG is kept: ARG[31:8] is don't-care (30_encoding R75) but part of the
  word that the `Cmd` event carries; the payload is ARG[7:0]. -/
  | i2cOut (arg : BitVec 32)
  /-- LCD_NIBBLE x, rs (41_nibble R133). -/
  | lcdNibble (x : Byte) (rs : BitVec 1)
  /-- LCD_CHAR c (42_lcd_commands R152). -/
  | lcdChar (c : Byte)
  /-- LCD_CMD c (42_lcd_commands R154). -/
  | lcdCmd (c : Byte)
  /-- LCD_INIT (42_lcd_commands R156). -/
  | lcdInit
  /-- LCD_STR p (42_lcd_commands R160). -/
  | lcdStr (p : Addr)
  /-- LCD_GOTO col, row, both 0-based (42_lcd_commands R158). -/
  | lcdGoto (col row : Byte)
  /-- LCD_STR_AT row1, col1, p, both coordinates 1-based (42_lcd_commands R162). -/
  | lcdStrAt (row1 col1 : Byte) (p : Addr)
  /-- LCD_CHAR_AT row1, col1, c, both coordinates 1-based (42_lcd_commands R163). -/
  | lcdCharAt (row1 col1 : Byte) (c : Byte)
  deriving DecidableEq, Repr

/-- The rows of the opcode map (30_encoding R72), in the table's order. -/
inductive Opcode where
  | i2cOut | lcdNibble | lcdChar | lcdCmd | lcdInit | lcdStr | lcdGoto | lcdStrAt | lcdCharAt
  deriving DecidableEq, Repr

/-- The fields of the one format CMD64 (30_encoding R70). -/
structure Fields where
  /-- OP, bits [63:56]. -/
  op : BitVec 8
  /-- R0, bits [55:49], reserved. -/
  r0 : BitVec 7
  /-- RS, bit [48]. -/
  rs : BitVec 1
  /-- ROW, bits [47:40]. -/
  row : BitVec 8
  /-- COL, bits [39:32]. -/
  col : BitVec 8
  /-- ARG, bits [31:0]. -/
  arg : BitVec 32
  deriving DecidableEq, Repr

/-- Why a word is illegal (30_encoding R74): its OP is unused, or a must-be-zero field is not zero. -/
inductive Illegal where
  /-- OP is 0x00 or 0x0A to 0xFF. -/
  | opUnused
  /-- A bit of R0 is 1. -/
  | r0NotZero
  /-- RS is 1 and the command is not LCD_NIBBLE. -/
  | rsNotZero
  /-- A bit of ROW or COL is 1 and the command has no coordinates. -/
  | coordNotZero
  /-- A bit of ARG that the command does not use is 1. -/
  | argNotZero
  deriving DecidableEq, Repr

end Sys2Proof
end

