-- ==== Sys2Proof/WellFormed.lean ====
section
/-! DEFINITION. Which field values make a legal command word: the must-be-zero column of 30_encoding R72 and the field table of
R70, read field by field. It is written without the masks of R72, so that it can be held against the decoder, which uses them. -/

namespace Sys2Proof

/-- OP is one of the nine assigned values 0x01 to 0x09 (30_encoding R72, R74). -/
def Fields.opAssigned (f : Fields) : Bool := 1 ≤ f.op.toNat && f.op.toNat ≤ 9

/-- R0 must be 0 for every command (30_encoding R70). -/
def Fields.r0Ok (f : Fields) : Bool := f.r0 == 0

/-- RS is used by LCD_NIBBLE only; reserved, and so 0, for every other command (30_encoding R70). -/
def Fields.rsOk (f : Fields) : Bool := f.op == 0x02 || f.rs == 0

/-- ROW and COL are used by LCD_GOTO, LCD_STR_AT and LCD_CHAR_AT; reserved, and so 0, otherwise (30_encoding R70). -/
def Fields.coordOk (f : Fields) : Bool :=
  f.op == 0x07 || f.op == 0x08 || f.op == 0x09 || (f.row == 0 && f.col == 0)

/-- ARG: I2C_OUT, LCD_STR and LCD_STR_AT take the whole field; LCD_INIT and LCD_GOTO need it 0; the byte commands need
ARG[31:8] = 0 (30_encoding R70, R72). -/
def Fields.argOk (f : Fields) : Bool :=
  if f.op == 0x01 || f.op == 0x06 || f.op == 0x08 then true
  else if f.op == 0x05 || f.op == 0x07 then f.arg == 0
  else f.arg.toNat < 256

/-- The fields of a legal command word: not illegal in the sense of 30_encoding R74. -/
def Fields.wellFormed (f : Fields) : Bool :=
  f.opAssigned && f.r0Ok && f.rsOk && f.coordOk && f.argOk

end Sys2Proof
end

