-- ==== Sys2Proof/Decode.lean ====
section
/-! DEFINITION. The decoder: the match and mask of every row (30_encoding R72), the operands (R71), `decode`, total on all 2^64
words (R73), which names what makes a word illegal (R74); then the encoder, the inverse of the operand assembly. -/

namespace Sys2Proof

/-- The opcode map's rows in the table's order (30_encoding R72). -/
def Opcode.all : List Opcode :=
  [.i2cOut, .lcdNibble, .lcdChar, .lcdCmd, .lcdInit, .lcdStr, .lcdGoto, .lcdStrAt, .lcdCharAt]

/-- The OP value of a row (30_encoding R72). -/
def Opcode.code : Opcode → BitVec 8
  | .i2cOut => 0x01
  | .lcdNibble => 0x02
  | .lcdChar => 0x03
  | .lcdCmd => 0x04
  | .lcdInit => 0x05
  | .lcdStr => 0x06
  | .lcdGoto => 0x07
  | .lcdStrAt => 0x08
  | .lcdCharAt => 0x09

/-- The match value of a row (30_encoding R72). -/
def Opcode.pattern : Opcode → Word
  | .i2cOut => 0x0100000000000000
  | .lcdNibble => 0x0200000000000000
  | .lcdChar => 0x0300000000000000
  | .lcdCmd => 0x0400000000000000
  | .lcdInit => 0x0500000000000000
  | .lcdStr => 0x0600000000000000
  | .lcdGoto => 0x0700000000000000
  | .lcdStrAt => 0x0800000000000000
  | .lcdCharAt => 0x0900000000000000

/-- The mask of a row (30_encoding R72). -/
def Opcode.mask : Opcode → Word
  | .i2cOut => 0xFFFFFFFF00000000
  | .lcdNibble => 0xFFFEFFFFFFFFFF00
  | .lcdChar => 0xFFFFFFFFFFFFFF00
  | .lcdCmd => 0xFFFFFFFFFFFFFF00
  | .lcdInit => 0xFFFFFFFFFFFFFFFF
  | .lcdStr => 0xFFFFFFFF00000000
  | .lcdGoto => 0xFFFF0000FFFFFFFF
  | .lcdStrAt => 0xFFFF000000000000
  | .lcdCharAt => 0xFFFF0000FFFFFF00

/-- A word w selects a row when `w & mask = match` (30_encoding R72). -/
def Opcode.selects (o : Opcode) (w : Word) : Bool := w &&& o.mask == o.pattern

/-- The fields of a word (30_encoding R70). -/
def fieldsOf (w : Word) : Fields where
  op := w.extractLsb' 56 8
  r0 := w.extractLsb' 49 7
  rs := w.extractLsb' 48 1
  row := w.extractLsb' 40 8
  col := w.extractLsb' 32 8
  arg := w.extractLsb' 0 32

/-- The word with given fields (30_encoding R70). -/
def Fields.toWord (f : Fields) : Word := f.op ++ f.r0 ++ f.rs ++ f.row ++ f.col ++ f.arg

/-- The byte operand ARG[7:0] (30_encoding R71). -/
def argByte (arg : BitVec 32) : Byte := arg.extractLsb' 0 8

/-- The command of a row with the operands of the given fields (30_encoding R71). -/
def Opcode.operands (o : Opcode) (f : Fields) : Instr :=
  match o with
  | .i2cOut => .i2cOut f.arg
  | .lcdNibble => .lcdNibble (argByte f.arg) f.rs
  | .lcdChar => .lcdChar (argByte f.arg)
  | .lcdCmd => .lcdCmd (argByte f.arg)
  | .lcdInit => .lcdInit
  | .lcdStr => .lcdStr f.arg
  | .lcdGoto => .lcdGoto f.col f.row
  | .lcdStrAt => .lcdStrAt f.row f.col f.arg
  | .lcdCharAt => .lcdCharAt f.row f.col (argByte f.arg)

/-- The name of what makes fields illegal (30_encoding R74), in the order OP, R0, RS, ROW and COL, ARG. -/
def Fields.illegal (f : Fields) : Illegal :=
  if !f.opAssigned then .opUnused
  else if !f.r0Ok then .r0NotZero
  else if !f.rsOk then .rsNotZero
  else if !f.coordOk then .coordNotZero
  else .argNotZero

/-- `decode(w)` of 30_encoding R73: the command of the row with `w & mask = match` and its operands; a word that no row selects
is illegal, and the error names why. -/
def decode (w : Word) : Except Illegal Instr :=
  match Opcode.all.find? (fun o => o.selects w) with
  | some o => .ok (o.operands (fieldsOf w))
  | none => .error (fieldsOf w).illegal

/-- The row of a command (30_encoding R72). -/
def Instr.opcode : Instr → Opcode
  | .i2cOut _ => .i2cOut
  | .lcdNibble _ _ => .lcdNibble
  | .lcdChar _ => .lcdChar
  | .lcdCmd _ => .lcdCmd
  | .lcdInit => .lcdInit
  | .lcdStr _ => .lcdStr
  | .lcdGoto _ _ => .lcdGoto
  | .lcdStrAt _ _ _ => .lcdStrAt
  | .lcdCharAt _ _ _ => .lcdCharAt

/-- The fields of a row's word with every operand and reserved field 0. -/
def Opcode.bare (o : Opcode) : Fields :=
  { op := o.code, r0 := 0, rs := 0, row := 0, col := 0, arg := 0 }

/-- The fields of a command's word: its OP, its operands in their fields, every other field 0 (30_encoding R70 to R72). -/
def Instr.fields : Instr → Fields
  | .i2cOut arg => { Opcode.i2cOut.bare with arg := arg }
  | .lcdNibble x rs => { Opcode.lcdNibble.bare with rs := rs, arg := x.setWidth 32 }
  | .lcdChar c => { Opcode.lcdChar.bare with arg := c.setWidth 32 }
  | .lcdCmd c => { Opcode.lcdCmd.bare with arg := c.setWidth 32 }
  | .lcdInit => Opcode.lcdInit.bare
  | .lcdStr p => { Opcode.lcdStr.bare with arg := p }
  | .lcdGoto col row => { Opcode.lcdGoto.bare with row := row, col := col }
  | .lcdStrAt row1 col1 p => { Opcode.lcdStrAt.bare with row := row1, col := col1, arg := p }
  | .lcdCharAt row1 col1 c => { Opcode.lcdCharAt.bare with row := row1, col := col1, arg := c.setWidth 32 }

/-- The command word of a command (30_encoding R70 to R72). -/
def encode (i : Instr) : Word := i.fields.toWord

/-- The 64-bit command word whose bits are `w`, of which `nbits` are given and the rest are 0. -/
def commandWord (nbits w : Nat) : Word := BitVec.ofNat 64 (w % 2 ^ nbits)

/-- What the decoder reads from a command word whose bits are `w` (none where it is illegal). -/
def decodeTableWord (nbits w : Nat) : Option Instr :=
  match decode (commandWord nbits w) with
  | .ok i => some i
  | .error _ => none

end Sys2Proof
end

