-- ==== Sys2Proof/Config.lean ====
section
/-! DEFINITION. What an implementation fixes: the open parameters of 00_scope R10 and R11. Durations are symbolic (R15: a count
of a unit, or a named parameter); their values are a `Timing`, an argument of every claim about time. The parameters that the
block's behaviour depends on are a `Params`; `Config.params` is the unknown value a real build has. `Config.freeByte` is the
free value of 20_memory R60. -/

namespace Sys2Proof

/-- A level of an output line (10_state R22). UNDRIVEN occurs only as a reset value. -/
inductive Level where
  | low | high | undriven
  deriving DecidableEq, Repr, Inhabited

/-- The three unit classes (00_scope R11, R15): U_T of the transport, U_N of the nibble writer, U_C of the byte layer. -/
inductive TimeUnit where
  | transport | nibble | command
  deriving DecidableEq, Repr

/-- The open holds of 00_scope R11, each a duration that may be zero. -/
inductive OpenHold where
  | start1 | start2 | ackSu | ackHi | ackLo | stopSu | stopHi | stopEnd | dataPre | cmdPre | gotoPost | powerUp
  deriving DecidableEq, Repr

/-- A duration (00_scope R15): a product n·U of a count and a unit, or a named parameter. -/
inductive Duration where
  /-- n·U. -/
  | units (n : Nat) (u : TimeUnit)
  /-- A named open hold. -/
  | named (h : OpenHold)
  deriving DecidableEq, Repr

/-- Values of the units and open holds in an ordered type of times (00_scope R11: open, so claims quantify over it). -/
structure Timing (α : Type) where
  /-- U_T, U_N, U_C. -/
  unit : TimeUnit → α
  /-- T_START1 to T_POWERUP. -/
  named : OpenHold → α

/-- The default of CMD_FUNCSET (00_scope R10). -/
def Config.cmdFuncsetDefault : Byte := 0x28

/-- The default of CMD_DISPCTL (00_scope R10). -/
def Config.cmdDispctlDefault : Byte := 0x0C

/-- The default of CMD_CLEAR (00_scope R10). -/
def Config.cmdClearDefault : Byte := 0x01

/-- The default of CMD_ENTRY (00_scope R10). -/
def Config.cmdEntryDefault : Byte := 0x06

/-- The parameters the block's steps depend on: those of 00_scope R11, open, and the four command bytes of R10, with their
defaults. -/
structure Params where
  /-- P_SCL_RESET. -/
  sclReset : Level
  /-- P_SDA_RESET. -/
  sdaReset : Level
  /-- P_STR_PEEK16. -/
  strPeek16 : Bool
  /-- P_ADDR_W less 1, so that every value is in the range 1 to 32. -/
  addrWidthLess1 : Fin 32
  /-- CMD_FUNCSET. -/
  cmdFuncset : Byte := Config.cmdFuncsetDefault
  /-- CMD_DISPCTL. -/
  cmdDispctl : Byte := Config.cmdDispctlDefault
  /-- CMD_CLEAR. -/
  cmdClear : Byte := Config.cmdClearDefault
  /-- CMD_ENTRY. -/
  cmdEntry : Byte := Config.cmdEntryDefault
  deriving DecidableEq, Repr, Inhabited

/-- Parameters with the four command bytes at their defaults (00_scope R10), the open ones as given. -/
def Params.atDefaults (p : Params) : Params :=
  { sclReset := p.sclReset, sdaReset := p.sdaReset, strPeek16 := p.strPeek16, addrWidthLess1 := p.addrWidthLess1 }

/-- The parameters of the machine at hand: open (00_scope R11), so no proof can see them. See log entry 2. -/
opaque Config.params : Params

/-- The k-th draw: any 8-bit value, on which the model places no law (20_memory R60). See log entry 4. -/
opaque Config.freeByte : Nat → Byte

end Sys2Proof
end

