-- ==== Sys2Proof/Machine/State.lean ====
section
/-! DEFINITION. The state: the six components of 10_state R21, and beside them what the environment holds (string memory, the
moves still to come) and the parameters of the machine. Plain data throughout. -/

namespace Sys2Proof.Machine

/-- MODE (10_state R25): whether a command is in progress. -/
inductive Mode where
  | idle | busy
  deriving DecidableEq, Repr

/-- The two output lines (10_state R22). -/
inductive Line where
  | scl | sda
  deriving DecidableEq, Repr

/-- A micro-operation (10_state R30 to R33). -/
inductive MicroOp where
  /-- WSCL(v): write the clock line (R30). -/
  | wscl (v : Bool)
  /-- WSDA(v): write the data line (R31). -/
  | wsda (v : Bool)
  /-- HOLD(d): wait at least d (R32). -/
  | hold (d : Duration)
  /-- SREAD(p, i), i in 0..16: one step of the string loop (R33, 42_lcd_commands R159). -/
  | sread (p : Addr) (i : Fin 17)
  deriving DecidableEq, Repr

/-- An event of TRACE (10_state R29). -/
inductive Event where
  /-- Accepting command word w. -/
  | cmd (w : Word)
  /-- Writing bit v to a line. -/
  | line (l : Line) (v : Bool)
  /-- A hold of duration d. -/
  | hold (d : Duration)
  /-- Reading byte c at address a. -/
  | read (a : Nat) (c : Byte)
  /-- Completing a command. -/
  | done
  deriving DecidableEq, Repr

/-- The reasons of FAULT (60_exceptions R201). -/
inductive FaultReason where
  /-- The written word decodes as illegal. -/
  | illegalCmd
  /-- A word was written while MODE = BUSY. -/
  | cmdWhileBusy
  deriving DecidableEq, Repr

/-- A set FAULT: its reason and the word recorded as info (60_exceptions R201). -/
structure FaultMark where
  reason : FaultReason
  info : Word
  deriving DecidableEq, Repr

/-- What the environment or the schedule does next (log entry 1). The host's issue step and the sequencer's step are atomic
steps taken one at a time in any interleaving (60_exceptions R205). -/
inductive Move where
  /-- The host writes a word to CMD now (10_state R34). -/
  | issue (w : Word)
  /-- The sequencer takes its turn (10_state R35). -/
  | sequence
  /-- The host polls STATUS until BUSY reads 0 (70 R231 step 6, 20_memory R61); while it reads 1 the sequencer moves. -/
  | await
  /-- The host writes byte v to address a of the string memory (20_memory R60). -/
  | write (a : Addr) (v : Byte)
  /-- Reset (10_state R39). -/
  | reset
  /-- The launch of a run gives its string memory: the readable bytes, a later cell before an earlier one of the same address
  (20_memory R51, log entry 3). -/
  | launch (cells : List Host.Cell)
  deriving DecidableEq, Repr

/-- The string memory M (20_memory R50): the readable bytes, addresses strictly rising. An unlisted address is one the launch's
string memory does not declare readable (R51, log entry 3); only a launch changes which addresses are listed. -/
abbrev Memory := List Host.Cell

/-- The state of the machine. -/
structure State where
  /-- SCL, the emulated clock line (10_state R22). -/
  scl : Level
  /-- SDA, the emulated data line (10_state R22). -/
  sda : Level
  /-- MODE (10_state R25). -/
  mode : Mode
  /-- PEND, what the sequencer still has to do (10_state R27). -/
  pend : List MicroOp
  /-- FAULT (10_state R28). -/
  fault : Option FaultMark
  /-- TRACE, oldest event first (10_state R29). -/
  trace : List Event
  /-- The string memory, the host's (20_memory R50). -/
  mem : Memory
  /-- The addresses the host has written although the string command in progress may read them (20_memory R60). -/
  clobbered : List Nat
  /-- How many draws have been taken (the model's own counter, log entry 4). -/
  draws : Nat
  /-- The moves still to come, first move first (the model's own, log entry 1). -/
  agenda : List Move
  /-- The parameters of the machine; configuration, changed by no step (10_state R21, log entry 2). -/
  params : Params
  deriving DecidableEq, Repr

/-- Why a step of the machine has no next state. No meaning of an instruction answers one of these. -/
inductive Fault where
  /-- Raised by the sequencer's turn when FAULT is set: the block takes no further step (60_exceptions R203). Safe: the spec
  gives the sequencer no step there. -/
  | halted (m : FaultMark)
  /-- Raised by the sequencer's turn at an SREAD whose read of address a the string memory does not admit: the sequencer is
  stuck, with no step (20_memory R51, 60_exceptions R202). Safe: the spec gives the sequencer no step there. -/
  | stuckRead (a : Nat)
  /-- Raised by a host write to an address outside the string memory's address space (20_memory R50). Safe: there is no such
  byte. -/
  | writeOutside (a : Nat)
  /-- Raised by the move `launch` once a command has been issued since reset: a run's string memory is declared at its launch
  (20_memory R51). Safe: the spec has no such move. -/
  | lateLaunch
  deriving DecidableEq, Repr

/-- Why the model gives no meaning. -/
inductive Refusal where
  /-- Raised by the dispatcher for an instruction without a meaning yet; every instruction has one, so nothing raises it. Safe. -/
  | notModelled (mnemonic : String)
  deriving DecidableEq, Repr

/-- The machine right after reset for given parameters (10_state R39): the lines at their reset levels, IDLE, nothing pending,
no fault, an empty trace; no string placed and no move of the host to come. -/
def State.resetOf (p : Params) : State where
  scl := p.sclReset
  sda := p.sdaReset
  mode := .idle
  pend := []
  fault := none
  trace := []
  mem := []
  clobbered := []
  draws := 0
  agenda := []
  params := p

/-- The machine right after reset (10_state R39), for the open parameters of the machine at hand. -/
def State.reset : State := State.resetOf Config.params

end Sys2Proof.Machine
end

