-- ==== Sys2Proof/Machine/Ops.lean ====
section
/-! DEFINITION. The named operations on the state: string memory, the trace and the lines, accepting a command, raising a model
fault, completing a command, the block's reset. -/

namespace Sys2Proof.Machine

/-- The level a written bit gives a line: 0 is LOW, 1 is HIGH (10_state R22). -/
def levelOf (v : Bool) : Level := if v then .high else .low

/-- The code of a fault reason (60_exceptions R201). -/
def FaultReason.code : FaultReason → Nat
  | .illegalCmd => 1
  | .cmdWhileBusy => 2

/-! ### String memory -/

/-- Addresses strictly rising: the canonical form. -/
def Memory.wf : Memory → Bool
  | [] => true
  | [_] => true
  | c :: d :: m => decide (c.1 < d.1) && Memory.wf (d :: m)

/-- The byte at address a, none where a is not readable (20_memory R51). -/
def Memory.read (m : Memory) (a : Nat) : Option Byte :=
  match m with
  | [] => none
  | c :: m => if c.1 = a then some c.2 else Memory.read m a

/-- The memory with byte v at address a, which is readable from then on; keeps the canonical form. -/
def Memory.write (m : Memory) (a : Nat) (v : Byte) : Memory :=
  match m with
  | [] => [(a, v)]
  | c :: m =>
    if a < c.1 then (a, v) :: c :: m
    else if a = c.1 then (a, v) :: m
    else c :: Memory.write m a v

/-- The memory whose readable bytes are given cells; of two cells of one address the later one counts. -/
def Memory.ofCells (cells : List Host.Cell) : Memory := cells.foldl (fun m c => m.write c.1 c.2) []

/-- P_ADDR_W (00_scope R11), 1 to 32. -/
def addrWidth (p : Params) : Nat := p.addrWidthLess1.val + 1

/-- Address a exists: a < 2^P_ADDR_W (20_memory R50). -/
def addrExists (p : Params) (a : Nat) : Bool := a < 2 ^ addrWidth p

/-- `MemRead(a, 1)` (20_memory R51): none where the read is not admitted (a does not exist or is not readable). A byte the host
has written although the command in progress may read it is a draw (R60); otherwise the byte M[a]. -/
def State.memRead (s : State) (a : Nat) : Option (Byte × State) :=
  if addrExists s.params a then
    match s.mem.read a with
    | none => none
    | some c =>
      if a ∈ s.clobbered then some (Config.freeByte s.draws, { s with draws := s.draws + 1 })
      else some (c, s)
  else none

/-- The pointer of the string command in progress: that of an SREAD still pending (20_memory R60). -/
def stringPointer : List MicroOp → Option Addr
  | [] => none
  | .sread p _ :: _ => some p
  | .wscl _ :: ops => stringPointer ops
  | .wsda _ :: ops => stringPointer ops
  | .hold _ :: ops => stringPointer ops

/-- The command in progress may read address a: p ≤ a ≤ p + 16 for its pointer p (20_memory R60). -/
def mayRead (ops : List MicroOp) (a : Nat) : Bool :=
  match stringPointer ops with
  | none => false
  | some p => p.toNat ≤ a && a ≤ p.toNat + 16

/-- The addresses overwritten so far, with a added. -/
def markClobbered (l : List Nat) (a : Nat) : List Nat := if a ∈ l then l else a :: l

/-- The host writes byte v at address a of the string memory: unconstrained outside a string command; inside one, an address the
command may read is marked, and its reads become draws (20_memory R60). A byte that the launch did not declare readable stays
unreadable (R51), so the block never sees the write. -/
def hostWrite (a : Addr) (v : Byte) (s : State) : Host.Outcome State Fault Refusal :=
  if addrExists s.params a.toNat then
    match s.mem.read a.toNat with
    | none => .next s
    | some _ =>
      .next { s with
        mem := s.mem.write a.toNat v
        clobbered := if mayRead s.pend a.toNat then markClobbered s.clobbered a.toNat else s.clobbered }
  else .fault (.writeOutside a.toNat)

/-- The launch of a run gives its string memory (20_memory R51): before the run's first command only (log entry 3). -/
def launchMemory (cells : List Host.Cell) (s : State) : Host.Outcome State Fault Refusal :=
  if s.trace = [] ∧ s.mode = .idle ∧ s.fault = none then .next { s with mem := Memory.ofCells cells }
  else .fault .lateLaunch

/-! ### Trace and lines -/

/-- `emit(ev)`: append an event to TRACE (10_state R29). -/
def State.emit (s : State) (e : Event) : State := { s with trace := s.trace ++ [e] }

/-- `WSCL(v)` (10_state R30). -/
def State.writeScl (s : State) (v : Bool) : State := { s with scl := levelOf v }.emit (.line .scl v)

/-- `WSDA(v)` (10_state R31). -/
def State.writeSda (s : State) (v : Bool) : State := { s with sda := levelOf v }.emit (.line .sda v)

/-- `HOLD(d)` (10_state R32): one event, no line written. -/
def State.holdFor (s : State) (d : Duration) : State := s.emit (.hold d)

/-! ### Commands and faults -/

/-- Accepting command word w with its expansion (10_state R34): `emit(Cmd(w)); PEND <- expand; MODE <- BUSY`. No byte has been
overwritten during the new command yet (20_memory R60). -/
def State.accept (s : State) (w : Word) (ops : List MicroOp) : State :=
  { s.emit (.cmd w) with pend := ops, mode := .busy, clobbered := [] }

/-- `raise Fault(reason, info)` (00_scope R14, 60_exceptions R201, R203, R207): FAULT is set and nothing else changes. -/
def State.raiseFault (s : State) (reason : FaultReason) (info : Word) : State :=
  { s with fault := some { reason := reason, info := info } }

/-- Completing a command (10_state R35): `emit(Done); MODE <- IDLE`. -/
def State.finish (s : State) : State := { s.emit .done with mode := .idle }

/-- The issue step of a word up to its decoding (10_state R34, 60_exceptions R205): no effect on a faulted block;
CMD_WHILE_BUSY on a busy one; otherwise what the decoding gives. -/
def issueGuard (w : Word) (s : State) (decoded : State → State) : State :=
  match s.fault with
  | some _ => s
  | none =>
    match s.mode with
    | .busy => s.raiseFault .cmdWhileBusy w
    | .idle => decoded s

/-- The issue step of a legal command word with its expansion (10_state R34). -/
def issueLegal (w : Word) (ops : List MicroOp) (s : State) : Host.Outcome State Fault Refusal :=
  .next (issueGuard w s (fun s => s.accept w ops))

/-- The issue step of an illegal word (10_state R34, 30_encoding R74). -/
def issueIllegal (w : Word) (s : State) : Host.Outcome State Fault Refusal :=
  .next (issueGuard w s (fun s => s.raiseFault .illegalCmd w))

/-- Reset of a running machine (10_state R39): every component of the block at its reset value. The host's memory, its moves
still to come and the parameters stay. -/
def State.blockReset (s : State) : State :=
  { State.resetOf s.params with mem := s.mem, draws := s.draws, agenda := s.agenda }

end Sys2Proof.Machine
end

