-- ==== Sys2Proof/Machine/Operands.lean ====
section
/-! DEFINITION. The operand forms: nibble placement (41_nibble R131), packet fields (R130), the byte split (42_lcd_commands R150),
the 1-based translation (R161), the DDRAM address (R157), the address of a character (20_memory R52). -/

namespace Sys2Proof.Machine

/-- `nibpos(x) = (x >> 4) << 2` (41_nibble R131): bits [5:2] hold x[7:4], the other bits are 0. -/
def nibpos (x : Byte) : Byte := (x >>> 4) <<< 2

/-- The register-select flag as a packet: bit 0 (41_nibble R130). -/
def rsBit (rs : BitVec 1) : Byte := rs.setWidth 8

/-- E_OFF, the enable-bit offset 0x02 (41_nibble R130, 00_scope R9). -/
def enableOff : Byte := 0x02

/-- `lo(c) = (c << 4) mod 256` (42_lcd_commands R150). -/
def lo (c : Byte) : Byte := c <<< 4

/-- The 1-based coordinate v as a 0-based one, `(v - 1) mod 256` (42_lcd_commands R161). -/
def zeroBased (v : Byte) : Byte := v - 1

/-- DDRAM_BASE(row): 0x80 for row 0, 0xC0 for row 1 (42_lcd_commands R157); used for rows below 2 only. -/
def ddramBase (row : Byte) : Byte := if row = 0 then 0x80 else 0xC0

/-- A position on the display: row < 2 and col < 16, unsigned (42_lcd_commands R157). -/
def onDisplay (col row : Byte) : Bool := row.toNat < 2 && col.toNat < 16

/-- The effective address p + i of character index i, an unbounded integer (20_memory R52). -/
def charAddr (p : Addr) (i : Fin 17) : Nat := p.toNat + i.val

end Sys2Proof.Machine
end

