-- ==== Sys2Proof/Machine/Transport.lean ====
section
/-! DEFINITION. The bit-level transport (40_transport): the frame of a payload byte, and I2C_OUT. -/

namespace Sys2Proof.Machine

/-- ADDR_SEQ, the eight address bits in the order sent (40_transport R100). -/
def addrSeq : List Bool := [false, true, false, false, false, false, false, false]

/-- The bits of a payload, bit 7 down to bit 0 (40_transport R102 step 4). -/
def payloadBits (b : Byte) : List Bool := [7, 6, 5, 4, 3, 2, 1, 0].map (fun i => b.getLsbD i)

/-- The start condition (40_transport R102 step 1). -/
def startOps : List MicroOp :=
  [.wscl true, .wsda true, .hold (.named .start1), .wsda false, .hold (.named .start2), .wscl false]

/-- One bit: set the data line, hold, clock high, hold, clock low, hold; n transport units each (40_transport R102 steps 2
and 4; 00_scope R10). -/
def bitOps (n : Nat) (v : Bool) : List MicroOp :=
  [.wsda v, .hold (.units n .transport), .wscl true, .hold (.units n .transport), .wscl false,
    .hold (.units n .transport)]

/-- ACKP, the acknowledge-shaped pulse (40_transport R101). -/
def ackp : List MicroOp :=
  [.wsda false, .hold (.named .ackSu), .wscl true, .hold (.named .ackHi), .wscl false, .hold (.named .ackLo)]

/-- The final stop (40_transport R102 step 6b). -/
def stopOps : List MicroOp :=
  [.wsda false, .hold (.named .stopSu), .wscl true, .hold (.named .stopHi), .wsda true, .hold (.named .stopEnd)]

/-- `frame(b)` (40_transport R102): start, address bits at 1 unit, acknowledge slot, payload bits at 50 units, second
acknowledge, two more pulses, stop. -/
def frame (b : Byte) : List MicroOp :=
  startOps ++ addrSeq.flatMap (bitOps 1) ++ ackp ++ (payloadBits b).flatMap (bitOps 50) ++ ackp ++ (ackp ++ ackp) ++ stopOps

/-- I2C_OUT b (40_transport R103): `expand = frame(ARG[7:0])`; ARG[31:8] is read by nothing. -/
def execI2cOut (arg : BitVec 32) (s : State) : Host.Outcome State Fault Refusal :=
  issueLegal (encode (.i2cOut arg)) (frame (argByte arg)) s

end Sys2Proof.Machine
end

