-- ==== Sys2Proof/Machine/Nibble.lean ====
section
/-! DEFINITION. The nibble writer (41_nibble): four frames around an enable pulse, and LCD_NIBBLE. -/

namespace Sys2Proof.Machine

/-- `nib(x, rs)` (41_nibble R132): the flag alone; flag and nibble; the same with E high; 10 units; E low again; 100 units. -/
def nib (x : Byte) (rs : BitVec 1) : List MicroOp :=
  frame (rsBit rs) ++ frame (nibpos x + rsBit rs) ++ frame (nibpos x + rsBit rs + enableOff)
    ++ [.hold (.units 10 .nibble)] ++ frame (nibpos x + rsBit rs) ++ [.hold (.units 100 .nibble)]

/-- LCD_NIBBLE x, rs (41_nibble R133): `expand = nib(x, rs)`. -/
def execLcdNibble (x : Byte) (rs : BitVec 1) (s : State) : Host.Outcome State Fault Refusal :=
  issueLegal (encode (.lcdNibble x rs)) (nib x rs) s

end Sys2Proof.Machine
end

