-- ==== Sys2Proof/Machine/LcdBytes.lean ====
section
/-! DEFINITION. The byte and command layer (42_lcd_commands sections 2 to 5): character write, command write, initialize,
positioning, and the four commands LCD_CHAR, LCD_CMD, LCD_INIT, LCD_GOTO. -/

namespace Sys2Proof.Machine

/-- `chr(c)` (42_lcd_commands R151): the inter-command delay, then both nibbles tagged as data, upper first. -/
def chr (c : Byte) : List MicroOp := [.hold (.named .dataPre)] ++ nib c 1 ++ nib (lo c) 1

/-- `cmd(c)` (42_lcd_commands R153): as `chr` but tagged as instruction, with 1·U_C between the nibbles. -/
def cmd (c : Byte) : List MicroOp :=
  [.hold (.named .cmdPre)] ++ nib c 0 ++ [.hold (.units 1 .command)] ++ nib (lo c) 0

/-- CMD_RESET8, the first command of initialize (00_scope R9). -/
def cmdReset8 : Byte := 0x32

/-- The five command bytes of initialize in their fixed order (42_lcd_commands R155, 70 R237). -/
def initBytes (p : Params) : List Byte := [cmdReset8, p.cmdFuncset, p.cmdDispctl, p.cmdClear, p.cmdEntry]

/-- `init` (42_lcd_commands R155): the power-up wait, then the five command writes. -/
def initOps (p : Params) : List MicroOp := [.hold (.named .powerUp)] ++ (initBytes p).flatMap cmd

/-- `goto(col, row)` (42_lcd_commands R157): nothing when off the display; else the set-DDRAM-address command and the wait for
its completion. -/
def gotoOps (col row : Byte) : List MicroOp :=
  if onDisplay col row then cmd (ddramBase row ||| col) ++ [.hold (.named .gotoPost)] else []

/-- LCD_CHAR c (42_lcd_commands R152): `expand = chr(c)`. -/
def execLcdChar (c : Byte) (s : State) : Host.Outcome State Fault Refusal :=
  issueLegal (encode (.lcdChar c)) (chr c) s

/-- LCD_CMD c (42_lcd_commands R154): `expand = cmd(c)`. -/
def execLcdCmd (c : Byte) (s : State) : Host.Outcome State Fault Refusal :=
  issueLegal (encode (.lcdCmd c)) (cmd c) s

/-- LCD_INIT (42_lcd_commands R156): `expand = init`. -/
def execLcdInit (s : State) : Host.Outcome State Fault Refusal :=
  issueLegal (encode .lcdInit) (initOps s.params) s

/-- LCD_GOTO col, row (42_lcd_commands R158): `expand = goto(col, row)`, both 0-based. -/
def execLcdGoto (col row : Byte) (s : State) : Host.Outcome State Fault Refusal :=
  issueLegal (encode (.lcdGoto col row)) (gotoOps col row) s

end Sys2Proof.Machine
end

