-- ==== Sys2Proof/Machine/LcdStrings.lean ====
section
/-! DEFINITION. The string write and the 1-based wrappers (42_lcd_commands sections 6 and 7): LCD_STR, LCD_STR_AT, LCD_CHAR_AT.
The string loop's own step, SREAD, is in Machine/Sequencer.lean. -/

namespace Sys2Proof.Machine

/-- The start of the string loop on pointer p, `[ SREAD(p, 0) ]` (42_lcd_commands R160). -/
def strOps (p : Addr) : List MicroOp := [.sread p 0]

/-- The positioning of a 1-based wrapper (42_lcd_commands R161, R162). -/
def gotoOneBased (row1 col1 : Byte) : List MicroOp := gotoOps (zeroBased col1) (zeroBased row1)

/-- LCD_STR p (42_lcd_commands R160): `expand = [ SREAD(p, 0) ]`. -/
def execLcdStr (p : Addr) (s : State) : Host.Outcome State Fault Refusal :=
  issueLegal (encode (.lcdStr p)) (strOps p) s

/-- LCD_STR_AT row1, col1, p (42_lcd_commands R162): positioning, then the string whether or not it was in range. -/
def execLcdStrAt (row1 col1 : Byte) (p : Addr) (s : State) : Host.Outcome State Fault Refusal :=
  issueLegal (encode (.lcdStrAt row1 col1 p)) (gotoOneBased row1 col1 ++ strOps p) s

/-- LCD_CHAR_AT row1, col1, c (42_lcd_commands R163): positioning, then the character whether or not it was in range. -/
def execLcdCharAt (row1 col1 c : Byte) (s : State) : Host.Outcome State Fault Refusal :=
  issueLegal (encode (.lcdCharAt row1 col1 c)) (gotoOneBased row1 col1 ++ chr c) s

end Sys2Proof.Machine
end

