-- ==== Sys2Proof/Machine/Dispatch.lean ====
section
/-! DEFINITION. The dispatcher: the host's issue step of one legal command (10_state R34), by constructor. -/

namespace Sys2Proof.Machine

def exec (i : Instr) (s : State) : Host.Outcome State Fault Refusal :=
  match i with
  | .i2cOut arg => Sys2Proof.Machine.execI2cOut arg s
  | .lcdNibble x rs => Sys2Proof.Machine.execLcdNibble x rs s
  | .lcdChar c => Sys2Proof.Machine.execLcdChar c s
  | .lcdCmd c => Sys2Proof.Machine.execLcdCmd c s
  | .lcdInit => Sys2Proof.Machine.execLcdInit s
  | .lcdStr p => Sys2Proof.Machine.execLcdStr p s
  | .lcdGoto col row => Sys2Proof.Machine.execLcdGoto col row s
  | .lcdStrAt row1 col1 p => Sys2Proof.Machine.execLcdStrAt row1 col1 p s
  | .lcdCharAt row1 col1 c => Sys2Proof.Machine.execLcdCharAt row1 col1 c s

end Sys2Proof.Machine
end

