-- ==== Sys2Proof/Machine/Flags.lean ====
section
/-! DEFINITION. The block has no flags and no condition codes (10_state R24); this file holds its one status register. -/

namespace Sys2Proof.Machine

/-- STATUS as the host reads it (10_state R25): bit 0 is BUSY, every other bit reads as 0. A number, because the spec gives the
register no width (log entry 6). It shows no fault (60_exceptions R204). -/
def status (s : State) : Nat :=
  match s.mode with
  | .idle => 0
  | .busy => 1

end Sys2Proof.Machine
end

