-- ==== Sys2Proof/Machine/Sequencer.lean ====
section
/-! DEFINITION. The sequencer (10_state R35): performing one micro-operation, the string loop's step SREAD (42_lcd_commands R159),
and the sequencer's turn. -/

namespace Sys2Proof.Machine

/-- SREAD(p, i) for i < 16, after the read of byte c: a byte that is not 0x00 is written and the loop goes on; 0x00 ends it
(42_lcd_commands R159). `next` is SREAD(p, i + 1). -/
def sreadContinue (c : Byte) (next : MicroOp) (s : State) : State :=
  if c = 0 then s else { s with pend := chr c ++ [next] ++ s.pend }

/-- SREAD(p, i), with PEND already holding the operations after it (42_lcd_commands R159). A read that is not admitted has no
step (20_memory R51). -/
def performSread (p : Addr) (i : Fin 17) (s : State) : Host.Outcome State Fault Refusal :=
  if h : i.val < 16 then
    match s.memRead (charAddr p i) with
    | none => .fault (.stuckRead (charAddr p i))
    | some (c, s') => .next (sreadContinue c (.sread p ⟨i.val + 1, by omega⟩) (s'.emit (.read (charAddr p i) c)))
  else if s.params.strPeek16 then
    match s.memRead (charAddr p i) with
    | none => .fault (.stuckRead (charAddr p i))
    | some (c, s') => .next (s'.emit (.read (charAddr p i) c))
  else .next s

/-- `perform op` (10_state R30 to R33). -/
def perform (op : MicroOp) (s : State) : Host.Outcome State Fault Refusal :=
  match op with
  | .wscl v => .next (s.writeScl v)
  | .wsda v => .next (s.writeSda v)
  | .hold d => .next (s.holdFor d)
  | .sread p i => performSread p i s

/-- The sequencer's turn. With FAULT set it has no step (60_exceptions R203); in IDLE it waits for a command word (70 R230); in
BUSY it completes the command when PEND is empty, else removes PEND's head and performs it (10_state R35). -/
def sequencerStep (s : State) : Host.Outcome State Fault Refusal :=
  match s.fault with
  | some m => .fault (.halted m)
  | none =>
    match s.mode with
    | .idle => .next s
    | .busy =>
      match s.pend with
      | [] => .next s.finish
      | op :: rest => perform op { s with pend := rest }

end Sys2Proof.Machine
end

