-- ==== Sys2Proof/Machine/HostPort.lean ====
section
/-! DEFINITION. The command port: the issue step of any word (10_state R34) and the effect of each move of the agenda. -/

namespace Sys2Proof.Machine

/-- The host writes word w to CMD (10_state R34): decode it, then the command's issue step or that of an illegal word. -/
def issueWord (w : Word) (s : State) : Host.Outcome State Fault Refusal :=
  match decode w with
  | .ok i => exec i s
  | .error _ => issueIllegal w s

/-- The host polls STATUS: while BUSY reads 1 it keeps polling and the sequencer takes its turn; when it reads 0 the host goes on
(20_memory R61, 70 R231 step 6). -/
def pollStatus (s : State) : Host.Outcome State Fault Refusal :=
  if status s = 1 then sequencerStep { s with agenda := .await :: s.agenda } else .next s

/-- The effect of a move, in a state whose agenda no longer holds it. -/
def takeMove (m : Move) (s : State) : Host.Outcome State Fault Refusal :=
  match m with
  | .issue w => issueWord w s
  | .sequence => sequencerStep s
  | .await => pollStatus s
  | .write a v => hostWrite a v s
  | .reset => .next s.blockReset
  | .launch cells => launchMemory cells s

/-- The agenda with a word for CMD put first: the host writes this word next. -/
def placeWord (s : State) (w : Word) : State := { s with agenda := .issue w :: s.agenda }

end Sys2Proof.Machine
end

