-- ==== Sys2Proof/Machine/Step.lean ====
section
/-! DEFINITION. One step of the machine, and where it takes its next command word from. -/

namespace Sys2Proof.Machine

/-- One step: the first move of the agenda, or the sequencer's turn when the agenda is empty (log entry 1). -/
def step (s : State) : Host.Outcome State Fault Refusal :=
  match s.agenda with
  | [] => sequencerStep s
  | m :: rest => takeMove m { s with agenda := rest }

/-- The state with a command word placed where the step takes its next one: first on the agenda. -/
def State.withFetchWord (s : State) (nbits w : Nat) : State := placeWord s (commandWord nbits w)

end Sys2Proof.Machine
end

