-- ==== Sys2Proof/Machine/Assembler.lean ====
section
/-! DEFINITION. The text form of the command words (30_encoding R78) and the pseudo-instructions `lcd.clear` and `lcd.home` (R79).
Text is a list of characters. Blank characters and operand order: log entry 7. -/

namespace Sys2Proof.Machine

/-- A token of the text form: a run of name or number characters, a quoted character, a comma, an equals sign. -/
inductive Token where
  | word (cs : List Char)
  | quoted (c : Char)
  | comma
  | eq
  deriving DecidableEq, Repr

/-- The token of the characters gathered so far, if any. -/
def flushWord (cs : List Char) : List Token := if cs = [] then [] else [.word cs]

/-- Text to tokens; `acc` holds the characters of the word being read. -/
def lexText (acc : List Char) : List Char → Option (List Token)
  | [] => some (flushWord acc)
  | '\'' :: c :: '\'' :: rest =>
    if acc = [] then (lexText [] rest).map (fun ts => .quoted c :: ts) else none
  | c :: rest =>
    if c = ' ' ∨ c = '\t' then (lexText [] rest).map (fun ts => flushWord acc ++ ts)
    else if c = ',' then (lexText [] rest).map (fun ts => flushWord acc ++ [.comma] ++ ts)
    else if c = '=' then (lexText [] rest).map (fun ts => flushWord acc ++ [.eq] ++ ts)
    else lexText (acc ++ [c]) rest

/-- The value of a digit in a base of at most 16. -/
def digitValue (base : Nat) (c : Char) : Option Nat :=
  let v :=
    if '0' ≤ c ∧ c ≤ '9' then some (c.toNat - 48)
    else if 'a' ≤ c ∧ c ≤ 'f' then some (c.toNat - 87)
    else if 'A' ≤ c ∧ c ≤ 'F' then some (c.toNat - 55)
    else none
  v.bind (fun n => if n < base then some n else none)

/-- Digits as a number, none where one of them is no digit of the base. -/
def digitsValue (base : Nat) (acc : Nat) : List Char → Option Nat
  | [] => some acc
  | c :: cs => (digitValue base c).bind (fun d => digitsValue base (acc * base + d) cs)

/-- A number: decimal, or `0x` hexadecimal (30_encoding R78). -/
def numberValue : List Char → Option Nat
  | [] => none
  | ['0', 'x'] => none
  | '0' :: 'x' :: cs => digitsValue 16 0 cs
  | cs => digitsValue 10 0 cs

/-- The value of an operand token: a number, or the byte of an ASCII character (30_encoding R78). -/
def tokenValue : Token → Option Nat
  | .word cs => numberValue cs
  | .quoted c => if c.toNat < 128 then some c.toNat else none
  | _ => none

/-- One operand: its value, with its name and an equals sign before it or, positionally, without (30_encoding R78). An operand
shown without a name (`none`) is positional only. -/
def parseOperand (name : Option (List Char)) : List Token → Option Nat
  | [t] => tokenValue t
  | [.word n, .eq, t] => if name = some n then tokenValue t else none
  | _ => none

/-- Tokens cut at the commas. -/
def splitCommas (acc : List Token) : List Token → List (List Token)
  | [] => [acc]
  | .comma :: ts => acc :: splitCommas [] ts
  | t :: ts => splitCommas (acc ++ [t]) ts

/-- The operand values for the names in the order shown (30_encoding R78). -/
def parseOperands : List (Option (List Char)) → List (List Token) → Option (List Nat)
  | [], [] => some []
  | n :: ns, o :: os =>
    (parseOperand n o).bind (fun v => (parseOperands ns os).map (fun vs => v :: vs))
  | _, _ => none

/-- The operands of a line: none at all, or as many as the table shows, separated by commas. -/
def lineOperands (names : List (Option (List Char))) (ts : List Token) : Option (List Nat) :=
  match names, ts with
  | [], [] => some []
  | [], _ :: _ => none
  | _ :: _, [] => none
  | _ :: _, _ :: _ => parseOperands names (splitCommas [] ts)

/-- An operand as a field of w bits; an assembler refuses one that does not fit (30_encoding R78). -/
def fitField (w : Nat) (v : Nat) : Option (BitVec w) := if v < 2 ^ w then some (BitVec.ofNat w v) else none

/-- One 8-bit operand. -/
def byteOperand (f : Byte → Instr) : List Nat → Option Instr
  | [a] => (fitField 8 a).map f
  | _ => none

/-- One 32-bit operand. -/
def wordOperand (f : BitVec 32 → Instr) : List Nat → Option Instr
  | [a] => (fitField 32 a).map f
  | _ => none

/-- Two operands of given widths. -/
def twoOperands {v w : Nat} (f : BitVec v → BitVec w → Instr) : List Nat → Option Instr
  | [a, b] => (fitField v a).bind (fun x => (fitField w b).map (f x))
  | _ => none

/-- Two 8-bit operands and one of a given width. -/
def threeOperands {w : Nat} (f : Byte → Byte → BitVec w → Instr) : List Nat → Option Instr
  | [a, b, c] => (fitField 8 a).bind (fun x => (fitField 8 b).bind (fun y => (fitField w c).map (f x y)))
  | _ => none

/-- The names of the named operands (30_encoding R78). -/
def nameRs : Option (List Char) := some ['r', 's']
def nameRow : Option (List Char) := some ['r', 'o', 'w']
def nameCol : Option (List Char) := some ['c', 'o', 'l']

/-- The command of a mnemonic and its operand tokens (30_encoding R78, R79). -/
def assembleTokens (p : Params) (m : List Char) (ts : List Token) : Option Instr :=
  if m = "i2c.out".toList then (lineOperands [none] ts).bind (wordOperand .i2cOut)
  else if m = "lcd.nib".toList then (lineOperands [none, nameRs] ts).bind (twoOperands .lcdNibble)
  else if m = "lcd.chr".toList then (lineOperands [none] ts).bind (byteOperand .lcdChar)
  else if m = "lcd.cmd".toList then (lineOperands [none] ts).bind (byteOperand .lcdCmd)
  else if m = "lcd.init".toList then (lineOperands [] ts).map (fun _ => .lcdInit)
  else if m = "lcd.str".toList then (lineOperands [none] ts).bind (wordOperand .lcdStr)
  else if m = "lcd.goto".toList then (lineOperands [nameCol, nameRow] ts).bind (twoOperands .lcdGoto)
  else if m = "lcd.str_at".toList then (lineOperands [nameRow, nameCol, none] ts).bind (threeOperands .lcdStrAt)
  else if m = "lcd.chr_at".toList then (lineOperands [nameRow, nameCol, none] ts).bind (threeOperands .lcdCharAt)
  else if m = "lcd.clear".toList then (lineOperands [] ts).map (fun _ => .lcdCmd p.cmdClear)
  else if m = "lcd.home".toList then (lineOperands [] ts).map (fun _ => .lcdCmd 0x02)
  else none

/-- The command a line of text stands for, none where the assembler refuses it (30_encoding R78, R79). -/
def assembleInstr (p : Params) (text : List Char) : Option Instr :=
  match lexText [] text with
  | some (.word m :: ts) => assembleTokens p m ts
  | _ => none

/-- The command word a line of text stands for (30_encoding R78). -/
def assemble (p : Params) (text : List Char) : Option Word := (assembleInstr p text).map encode

end Sys2Proof.Machine
end

