-- ==== Sys2Proof/Machine/Receiver.lean ====
section
/-! DEFINITION. The observations of TRACE that the spec defines: the level-change projection (10_state R41), the wire events and
decoded frames of an ideal receiver (40_transport R108, R109), the latch projection (41_nibble R136). Observations, not state:
no step reads them (10_state R38). -/

namespace Sys2Proof.Machine

/-- The levels of the two lines. -/
structure Lines where
  scl : Level
  sda : Level
  deriving DecidableEq, Repr

/-- The lines of a state. -/
def State.lines (s : State) : Lines := { scl := s.scl, sda := s.sda }

/-- The level of one line. -/
def levelAt (ls : Lines) (l : Line) : Level :=
  match l with
  | .scl => ls.scl
  | .sda => ls.sda

/-- The lines after one event: a write sets its line, every other event leaves both (10_state R30 to R32). -/
def linesAfter (ls : Lines) (e : Event) : Lines :=
  match e with
  | .line .scl v => { ls with scl := levelOf v }
  | .line .sda v => { ls with sda := levelOf v }
  | _ => ls

/-- The lines after a list of events. -/
def linesAfterAll (ls : Lines) (es : List Event) : Lines := es.foldl linesAfter ls

/-- The toggle of one event: a line write that changes its line's level; UNDRIVEN differs from both (10_state R41). -/
def toggleOf (ls : Lines) (e : Event) : Option (Line × Bool) :=
  match e with
  | .line l v => if levelAt ls l = levelOf v then none else some (l, v)
  | _ => none

/-- The toggles among the events, the rest dropped (10_state R41). -/
def toggles (ls : Lines) : List Event → List (Line × Bool)
  | [] => []
  | e :: es => (toggleOf ls e).toList ++ toggles (linesAfter ls e) es

/-- A wire event (40_transport R108). -/
inductive Wire where
  /-- SDA falls from HIGH to LOW while SCL is HIGH. -/
  | start
  /-- SDA rises from LOW to HIGH while SCL is HIGH. -/
  | stop
  /-- SCL rises from LOW to HIGH; the value is the SDA level at that moment. -/
  | sample (v : Level)
  deriving DecidableEq, Repr

/-- The wire event of one event, given the levels before it (40_transport R108). -/
def wireOf (ls : Lines) (e : Event) : Option Wire :=
  match e with
  | .line .scl true => if ls.scl = .low then some (.sample ls.sda) else none
  | .line .sda false => if ls.sda = .high ∧ ls.scl = .high then some .start else none
  | .line .sda true => if ls.sda = .low ∧ ls.scl = .high then some .stop else none
  | _ => none

/-- The wire events of a list of events, from given levels. -/
def wires (ls : Lines) : List Event → List Wire
  | [] => []
  | e :: es => (wireOf ls e).toList ++ wires (linesAfter ls e) es

/-- The sample values up to the next STOP, none where no STOP follows. -/
def samplesToStop : List Wire → Option (List Level)
  | [] => none
  | .stop :: _ => some []
  | .start :: ws => samplesToStop ws
  | .sample v :: ws => (samplesToStop ws).map (fun vs => v :: vs)

/-- The decoded frames (40_transport R109): for each START, the sample values to the next STOP. -/
def decodedFrames : List Wire → List (List Level)
  | [] => []
  | .start :: ws => (samplesToStop ws).toList ++ decodedFrames ws
  | .stop :: ws => decodedFrames ws
  | .sample _ :: ws => decodedFrames ws

/-- A level read as a bit; UNDRIVEN is no bit. -/
def levelBit : Level → Option Bool
  | .low => some false
  | .high => some true
  | .undriven => none

/-- Bits read as a byte, the first one being bit 7 (40_transport R109). -/
def byteOfBits (bits : List Bool) : Byte :=
  bits.foldl (fun b v => (b <<< 1) ||| (if v then 1 else 0)) 0

/-- The payload of a decoded frame if it is well formed (40_transport R109): 21 samples, samples 1 to 8 ADDR_SEQ, sample 9 and
samples 18 to 21 equal to 0; the payload is samples 10 to 17. -/
def framePayload (samples : List Level) : Option Byte :=
  match samples.mapM levelBit with
  | none => none
  | some bits =>
    if bits.length = 21 ∧ bits.take 8 = addrSeq ∧ (bits.drop 8).take 1 = [false]
        ∧ bits.drop 17 = [false, false, false, false]
    then some (byteOfBits ((bits.drop 9).take 8))
    else none

/-- The payloads of the well-formed decoded frames, in order: the expander port values P_1, P_2, … (41_nibble R136). -/
def payloads (ls : Lines) (es : List Event) : List Byte := (decodedFrames (wires ls es)).filterMap framePayload

/-- An LCD latch (41_nibble R136): the register-select flag and the nibble latched. -/
structure Latch where
  rs : BitVec 1
  nibble : BitVec 4
  deriving DecidableEq, Repr

/-- The E field of a port value (41_nibble R130). -/
def portE (p : Byte) : Bool := p.getLsbD 1

/-- What the LCD latches from a port value: `RS = P[0]`, `D = P[5:2]` (41_nibble R130, R136). -/
def latchOf (p : Byte) : Latch := { rs := p.extractLsb' 0 1, nibble := p.extractLsb' 2 4 }

/-- The LCD latches of port values after the port value p (41_nibble R136): one at each falling edge of E. -/
def latches (p : Byte) : List Byte → List Latch
  | [] => []
  | q :: qs => (if portE p && !portE q then [latchOf q] else []) ++ latches q qs

/-- A byte the LCD formed from two latches (41_nibble R136): tagged with the first latch's flag; consistent when both agree. -/
structure LcdByte where
  rs : BitVec 1
  byte : Byte
  consistent : Bool
  deriving DecidableEq, Repr

/-- The latches paired in order, the first as bits [7:4] (41_nibble R136). -/
def lcdBytes : List Latch → List LcdByte
  | [] => []
  | [_] => []
  | a :: b :: ls => { rs := a.rs, byte := a.nibble ++ b.nibble, consistent := a.rs == b.rs } :: lcdBytes ls

end Sys2Proof.Machine
end

