-- ==== Sys2Proof/Machine/Timing.lean ====
section
/-! DEFINITION. Time (10_state R32, 00_scope R11, R15): the value of a symbolic duration, the sum of the holds of events, the
timing law of TRACE, and the minimum durations of 70_reset_and_hazards R243. Only lower bounds: no step depends on time. -/

namespace Sys2Proof.Machine

/-- The ranges of 00_scope R11: units are positive, open holds are not negative. -/
def timingInRange {α : Type} [Zero α] [LT α] [LE α] (τ : Timing α) : Prop :=
  (∀ u, 0 < τ.unit u) ∧ ∀ h, 0 ≤ τ.named h

/-- The value of a duration (00_scope R15). -/
def durationValue {α : Type} [AddCommMonoid α] (τ : Timing α) : Duration → α
  | .units n u => n • τ.unit u
  | .named h => τ.named h

/-- The hold an event stands for; only `Hold(d)` events bound time (10_state R32). -/
def eventTime {α : Type} [AddCommMonoid α] (τ : Timing α) : Event → α
  | .hold d => durationValue τ d
  | _ => 0

/-- The sum of the holds of a list of events. -/
def holdSum {α : Type} [AddCommMonoid α] (τ : Timing α) (es : List Event) : α := (es.map (eventTime τ)).sum

/-- The events strictly between positions i and j. -/
def eventsBetween (es : List Event) (i j : Nat) : List Event := (es.drop (i + 1)).take (j - i - 1)

/-- The timing law (10_state R32): `time k` is the real time of the k-th event; from an earlier to a later event it grows by at
least the holds strictly between them. There is no upper bound. -/
def timingLaw (τ : Timing ℝ) (es : List Event) (time : Nat → ℝ) : Prop :=
  ∀ i j, i < j → j < es.length → time i + holdSum τ (eventsBetween es i j) ≤ time j

section MinimumDurations
variable {α : Type} [AddCommMonoid α] (τ : Timing α)

/-- T_ACK (70 R243). -/
def ackMin : α := τ.named .ackSu + τ.named .ackHi + τ.named .ackLo

/-- T_STOP (70 R243). -/
def stopMin : α := τ.named .stopSu + τ.named .stopHi + τ.named .stopEnd

/-- F_min (70 R243): `1224·U_T + T_START1 + T_START2 + 4·T_ACK + T_STOP`. -/
def frameMin : α :=
  1224 • τ.unit .transport + τ.named .start1 + τ.named .start2 + 4 • ackMin τ + stopMin τ

/-- N_min (70 R243): `4·F_min + 110·U_N`. -/
def nibbleMin : α := 4 • frameMin τ + 110 • τ.unit .nibble

/-- C_min (70 R243): `T_DATA_PRE + 2·N_min`. -/
def charMin : α := τ.named .dataPre + 2 • nibbleMin τ

/-- K_min (70 R243): `T_CMD_PRE + 2·N_min + 1·U_C`. -/
def cmdMin : α := τ.named .cmdPre + 2 • nibbleMin τ + 1 • τ.unit .command

end MinimumDurations

end Sys2Proof.Machine
end

