-- ==== Sys2Proof/Safety.lean ====
section
/-! DEFINITION. The terms claims are stated in: `expand` of 10_state R34, when the block is ready, how a run ends (R42), the events
a list of micro-operations emits, the state a completed command leaves, the events of a string write, and the invariants. -/

namespace Sys2Proof.Machine

/-- `expand` (10_state R34): the micro-operations of each command, by its own rule. -/
def expand (p : Params) : Instr → List MicroOp
  | .i2cOut arg => frame (argByte arg)
  | .lcdNibble x rs => nib x rs
  | .lcdChar c => chr c
  | .lcdCmd c => cmd c
  | .lcdInit => initOps p
  | .lcdStr q => strOps q
  | .lcdGoto col row => gotoOps col row
  | .lcdStrAt row1 col1 q => gotoOneBased row1 col1 ++ strOps q
  | .lcdCharAt row1 col1 c => gotoOneBased row1 col1 ++ chr c

/-- n steps of the machine, stopping at the first that has no next state. -/
def runSteps : Nat → State → Host.Outcome State Fault Refusal
  | 0, s => .next s
  | n + 1, s =>
    match step s with
    | .next t => runSteps n t
    | .fault r => .fault r
    | .refused r => .refused r

/-- The block accepts a command: FAULT = none and MODE = IDLE (10_state R34). -/
def ready (s : State) : Prop := s.fault = none ∧ s.mode = .idle

/-- A run has ended well (10_state R42): IDLE, no fault, and the host issues nothing more. DESIGN CHOICE (log entry 11): the last is
asked as an empty agenda, so with any move still to come, one that issues no word included, the run does not count as ended. -/
def endedWell (s : State) : Prop := s.mode = .idle ∧ s.pend = [] ∧ s.fault = none ∧ s.agenda = []

/-- The event a micro-operation emits; SREAD's depends on the memory and is left out. -/
def opEvents : MicroOp → List Event
  | .wscl v => [.line .scl v]
  | .wsda v => [.line .sda v]
  | .hold d => [.hold d]
  | .sread _ _ => []

/-- The events of a list of micro-operations, in order. -/
def opsEvents (ops : List MicroOp) : List Event := ops.flatMap opEvents

/-- The micro-operation is an SREAD. -/
def isSread : MicroOp → Bool
  | .sread _ _ => true
  | .wscl _ => false
  | .wsda _ => false
  | .hold _ => false

/-- The state after the accepted word w has been performed with the events evs and completed: the lines as the events leave them,
IDLE, nothing pending, and `Cmd(w)`, the events, `Done` added to TRACE; everything else as before. -/
def completed (s : State) (w : Word) (evs : List Event) : State :=
  { s with
    scl := (linesAfterAll s.lines evs).scl
    sda := (linesAfterAll s.lines evs).sda
    mode := .idle
    pend := []
    clobbered := []
    trace := s.trace ++ [.cmd w] ++ evs ++ [.done] }

/-- The host issues command i in state s and the block then runs alone: i is accepted (10_state R34) with the micro-operations
ops, and after some steps the machine is in the completed state whose events are evs. -/
def runsTo (i : Instr) (s : State) (ops : List MicroOp) (evs : List Event) : Prop :=
  ∃ t n, exec i s = .next t
    ∧ t = { s with mode := .busy, pend := ops, clobbered := [], trace := s.trace ++ [.cmd (encode i)] }
    ∧ runSteps n t = .next (completed s (encode i) evs)

/-- The reads and character writes of a string's characters from index k on (42_lcd_commands R159). -/
def charEvents (p : Addr) (k : Nat) : List Byte → List Event
  | [] => []
  | c :: cs => .read (p.toNat + k) c :: opsEvents (chr c) ++ charEvents p (k + 1) cs

/-- The string memory holds the characters cs, none of them 0x00, from address p + k on, all readable (20_memory R51). -/
def holdsChars (s : State) (p : Addr) (k : Nat) : List Byte → Prop
  | [] => True
  | c :: cs => c ≠ 0 ∧ addrExists s.params (p.toNat + k) = true ∧ s.mem.read (p.toNat + k) = some c
      ∧ holdsChars s p (k + 1) cs

/-- The byte at address a is readable and is c (20_memory R51). -/
def holdsByte (s : State) (a : Nat) (c : Byte) : Prop := addrExists s.params a = true ∧ s.mem.read a = some c

/-- A string write of the characters cs from p and the reads after them: the terminator when fewer than 16 were written; the byte
d at p + 16 when 16 were written and P_STR_PEEK16 holds; none otherwise (42_lcd_commands R159). `d` is the byte read last. -/
def stringEvents (s : State) (p : Addr) (cs : List Byte) (d : Byte) : List Event :=
  charEvents p 0 cs ++
    (if cs.length < 16 then [.read (p.toNat + cs.length) 0]
     else if s.params.strPeek16 then [.read (p.toNat + 16) d] else [])

/-- The string memory holds at p a string whose first 16 bytes give the characters cs: fewer than 16 and then a 0x00, or 16; and
where the byte at p + 16 is read it is readable and is d (42_lcd_commands R159, R160). -/
def holdsString (s : State) (p : Addr) (cs : List Byte) (d : Byte) : Prop :=
  holdsChars s p 0 cs ∧ cs.length ≤ 16
    ∧ (cs.length < 16 → holdsByte s (p.toNat + cs.length) 0)
    ∧ (cs.length = 16 → s.params.strPeek16 = true → holdsByte s (p.toNat + 16) d)

/-- Every byte a string command may read, p to p + 16, is readable (20_memory R51, 42_lcd_commands R160); no demand on the other
commands, which read nothing. -/
def admitsString (s : State) : Instr → Prop
  | .lcdStr p => ∀ k, k ≤ 16 → ∃ c, holdsByte s (p.toNat + k) c
  | .lcdStrAt _ _ p => ∀ k, k ≤ 16 → ∃ c, holdsByte s (p.toNat + k) c
  | .i2cOut _ => True
  | .lcdNibble _ _ => True
  | .lcdChar _ => True
  | .lcdCmd _ => True
  | .lcdInit => True
  | .lcdGoto _ _ => True
  | .lcdCharAt _ _ _ => True

/-- The command reads string memory: LCD_STR and LCD_STR_AT (20_memory R50). -/
def readsString : Instr → Bool
  | .lcdStr _ => true
  | .lcdStrAt _ _ _ => true
  | .i2cOut _ => false
  | .lcdNibble _ _ => false
  | .lcdChar _ => false
  | .lcdCmd _ => false
  | .lcdInit => false
  | .lcdGoto _ _ => false
  | .lcdCharAt _ _ _ => false

/-- A string command sends k characters of the string memory; no demand on the other commands (42_lcd_commands R159, R160). -/
def sendsChars (s : State) (k : Nat) : Instr → Prop
  | .lcdStr p => ∃ cs d, holdsString s p cs d ∧ cs.length = k
  | .lcdStrAt _ _ p => ∃ cs d, holdsString s p cs d ∧ cs.length = k
  | .i2cOut _ => True
  | .lcdNibble _ _ => True
  | .lcdChar _ => True
  | .lcdCmd _ => True
  | .lcdInit => True
  | .lcdGoto _ _ => True
  | .lcdCharAt _ _ _ => True

/-- The minimum duration of LCD_GOTO (70 R243): K_min and the wait on the display, 0 off it. -/
def gotoMin {α : Type} [AddCommMonoid α] (τ : Timing α) (col row : Byte) : α :=
  if onDisplay col row then cmdMin τ + τ.named .gotoPost else 0

/-- The minimum duration of each command (70 R243); k is how many characters a string command sends. -/
def commandMin {α : Type} [AddCommMonoid α] (τ : Timing α) (k : Nat) : Instr → α
  | .i2cOut _ => frameMin τ
  | .lcdNibble _ _ => nibbleMin τ
  | .lcdChar _ => charMin τ
  | .lcdCmd _ => cmdMin τ
  | .lcdInit => τ.named .powerUp + 5 • cmdMin τ
  | .lcdStr _ => k • charMin τ
  | .lcdGoto col row => gotoMin τ col row
  | .lcdStrAt row1 col1 _ => gotoMin τ (zeroBased col1) (zeroBased row1) + k • charMin τ
  | .lcdCharAt row1 col1 _ => gotoMin τ (zeroBased col1) (zeroBased row1) + charMin τ

/-- Both lines HIGH, the bus idle (40_transport R107). -/
def bothHigh : Lines := { scl := .high, sda := .high }

/-- The lines' reset levels (10_state R39). -/
def resetLines (p : Params) : Lines := { scl := p.sclReset, sda := p.sdaReset }

/-- An event is a line write. -/
def isLineEvent : Event → Bool
  | .line _ _ => true
  | _ => false

/-- An event is a hold. -/
def isHoldEvent : Event → Bool
  | .hold _ => true
  | _ => false

/-- An event is a memory read. -/
def isReadEvent : Event → Bool
  | .read _ _ => true
  | _ => false

/-- The counts of 70 R244 for a command with the events evs from given line levels: frames, line writes, holds, reads, and all
events with `Cmd` and `Done`. -/
structure Counts where
  frames : Nat
  writes : Nat
  holds : Nat
  reads : Nat
  events : Nat
  deriving DecidableEq, Repr

/-- The counts of the events of one command (70 R244). -/
def countsOf (ls : Lines) (evs : List Event) : Counts where
  frames := (payloads ls evs).length
  writes := evs.countP isLineEvent
  holds := evs.countP isHoldEvent
  reads := evs.countP isReadEvent
  events := evs.length + 2

/-- How one event moves the mode that TRACE tells (20_memory R59): `Cmd` opens a command, `Done` closes it, line writes, holds and
reads lie inside one; none where the event does not fit. -/
def traceStep (m : Option Mode) (e : Event) : Option Mode :=
  match m, e with
  | some .idle, .cmd _ => some .busy
  | some .busy, .line _ _ => some .busy
  | some .busy, .hold _ => some .busy
  | some .busy, .read _ _ => some .busy
  | some .busy, .done => some .idle
  | _, _ => none

/-- The mode a TRACE tells, from reset. -/
def traceMode (es : List Event) : Option Mode := es.foldl traceStep (some .idle)

/-- Commands never interleave (20_memory R59): TRACE is a sequence of whole commands, with one open exactly when BUSY. -/
def traceInv (s : State) : Prop := traceMode s.trace = some s.mode

/-- PEND is empty when MODE is IDLE (10_state R27). -/
def pendInv (s : State) : Prop := s.mode = .idle → s.pend = []

/-- The lines are what TRACE's writes make of the reset levels (10_state R22, R29 to R31, R39). -/
def linesInv (s : State) : Prop := s.lines = linesAfterAll (resetLines s.params) s.trace

/-- An SREAD in PEND is its last micro-operation (42_lcd_commands R159, R160, R162). -/
def sreadLast : List MicroOp → Bool
  | [] => true
  | [_] => true
  | op :: op' :: ops => !isSread op && sreadLast (op' :: ops)

/-- An SREAD in PEND is its last micro-operation, and PEND leads the lines to bus idle (10_state R40): with a line write in TRACE or
in PEND they end HIGH and HIGH, with none they keep their reset levels. -/
def settleInv (s : State) : Prop :=
  sreadLast s.pend = true ∧
    linesAfterAll s.lines (opsEvents s.pend) =
      (if s.trace.any isLineEvent || (opsEvents s.pend).any isLineEvent then bothHigh else resetLines s.params)

/-- The string memory keeps its canonical form (20_memory R50, log entry 3). -/
def memInv (s : State) : Prop := s.mem.wf = true

/-- The moves still to come after the sequencer's turn: the move `sequence` is used up, a polling host goes on polling. -/
def afterTurn : List Move → List Move
  | .sequence :: rest => rest
  | agenda => agenda

/-- The read of address a is not admitted (20_memory R51). -/
def notAdmitted (s : State) (a : Nat) : Prop := 2 ^ addrWidth s.params ≤ a ∨ s.mem.read a = none

/-- The next move is the sequencer's turn. -/
def sequencerMoves (s : State) : Prop :=
  s.agenda = [] ∨ s.agenda.head? = some .sequence ∨ (s.agenda.head? = some .await ∧ s.mode = .busy)

end Sys2Proof.Machine
end

