-- ==== Sys2Proof/Certificates/Slice0/Obligations.lean ====
section
/-! DEFINITION. The statements for the provers, from the numbered rules of spec/. Nothing is proved here. -/

open Sys2Proof Sys2Proof.Machine

/-! ### Encoding (30_encoding) -/

/-- A few words of 95_test_vectors L2.0 and of the family sections decode as their bits say (30_encoding R70 to R75). -/
def Obligations.SpecWordsDecode : Prop :=
  decode 0x01000000FFFFFF34 = .ok (.i2cOut 0xFFFFFF34) ∧
  decode 0x0201000000000030 = .ok (.lcdNibble 0x30 1) ∧
  decode 0x0300000000000041 = .ok (.lcdChar 0x41) ∧
  decode 0x04000000000000CF = .ok (.lcdCmd 0xCF) ∧
  decode 0x0500000000000000 = .ok .lcdInit ∧
  decode 0x0600000000000200 = .ok (.lcdStr 0x200) ∧
  decode 0x0700010F00000000 = .ok (.lcdGoto 15 1) ∧
  decode 0x0800FFFF12345678 = .ok (.lcdStrAt 255 255 0x12345678) ∧
  decode 0x0900000500000058 = .ok (.lcdCharAt 0 5 0x58) ∧
  decode 0x0A00000000000000 = .error .opUnused ∧
  decode 0x0102000000000000 = .error .r0NotZero

/-- 30_encoding R73: `decode(w)` is the command of the unique row that selects w, with its operands; a word no row selects is
illegal. -/
def Obligations.DecodeFollowsUniqueRow : Prop :=
  ∀ w : Word,
    (∀ o : Opcode, w &&& o.mask = o.pattern → decode w = .ok (o.operands (fieldsOf w))) ∧
    ((∀ o : Opcode, w &&& o.mask ≠ o.pattern) → ∃ r, decode w = .error r) ∧
    (∀ o o' : Opcode, w &&& o.mask = o.pattern → w &&& o'.mask = o'.pattern → o = o')

/-- 30_encoding R74, first sentence: a word is illegal exactly when its OP is unused or a must-be-zero bit of R72 is 1; and
the fields of a legal word are those that the field table of R70 admits. -/
def Obligations.IllegalExactlyWhenFieldsSaySo : Prop :=
  ∀ w : Word, (∃ r, decode w = .error r) ↔ (fieldsOf w).wellFormed = false

/-- Every command's word decodes to that command: no operand bit is dropped (30_encoding R70 to R73). -/
def Obligations.DecodeOfEncode : Prop := ∀ i : Instr, decode (encode i) = .ok i

/-- Every legal word is the word of the command it decodes to: the decoder drops no bit, ARG[31:8] of I2C_OUT included. -/
def Obligations.EncodeOfDecode : Prop := ∀ (w : Word) (i : Instr), decode w = .ok i → encode i = w

/-- 30_encoding R75: any value of ARG[31:8] of I2C_OUT is legal, and the command sends ARG[7:0]. -/
def Obligations.I2cOutIgnoresHighBits : Prop :=
  ∀ w : Word, w.extractLsb' 32 32 = 0x01000000 →
    decode w = .ok (.i2cOut (w.extractLsb' 0 32)) ∧
    ∀ p : Params, expand p (.i2cOut (w.extractLsb' 0 32)) = frame (w.extractLsb' 0 8)

/-- 30_encoding R79: the pseudo-instructions are command writes of CMD_CLEAR and of 0x02. -/
def Obligations.PseudoInstructionsAreCommandWrites : Prop :=
  ∀ p : Params, assembleInstr p "lcd.clear".toList = some (.lcdCmd p.cmdClear) ∧
    assembleInstr p "lcd.home".toList = some (.lcdCmd 0x02)

/-! ### The command port and the sequencer (10_state, 60_exceptions) -/

/-- 10_state R34: the host's issue step, in all its cases and the order of 60_exceptions R205. The word stands first on the
agenda, the model's schedule of the host's moves (log entry 1); that acceptance empties the list of overwritten string bytes
is the model's choice (log entry 4). -/
def Obligations.HostIssueStep : Prop :=
  ∀ (s : State) (w : Word) (rest : List Move), s.agenda = .issue w :: rest →
    (s.fault ≠ none → step s = .next { s with agenda := rest }) ∧
    (s.fault = none → s.mode = .busy →
      step s = .next { s with agenda := rest, fault := some { reason := .cmdWhileBusy, info := w } }) ∧
    (s.fault = none → s.mode = .idle → ∀ r, decode w = .error r →
      step s = .next { s with agenda := rest, fault := some { reason := .illegalCmd, info := w } }) ∧
    (s.fault = none → s.mode = .idle → ∀ i, decode w = .ok i →
      step s = .next { s with agenda := rest, trace := s.trace ++ [.cmd w], pend := expand s.params i, mode := .busy, clobbered := [] })

/-- A step runs the decoded instruction: with a legal word first on the agenda, the step is `exec` of it in the state with the
word taken off; `withFetchWord` puts a word there. -/
def Obligations.StepRunsDecoded : Prop :=
  (∀ (s : State) (w : Word) (rest : List Move) (i : Instr), s.agenda = .issue w :: rest → decode w = .ok i →
    step s = exec i { s with agenda := rest }) ∧
  (∀ (s : State) (nbits w : Nat) (i : Instr), decodeTableWord nbits w = some i → step (s.withFetchWord nbits w) = exec i s)

/-- 10_state R36: every legal command has a meaning: `exec` answers a next state in every state. -/
def Obligations.ExecNeverStops : Prop := ∀ (i : Instr) (s : State), ∃ t, exec i s = .next t

/-- The frame of the nine commands' issue step (10_state R34): lines, string memory (every byte), draws, agenda and parameters
stay; FAULT changes only in BUSY; MODE, PEND and TRACE only when the command is accepted. -/
def Obligations.ExecFrame : Prop :=
  ∀ (i : Instr) (s t : State), exec i s = .next t →
    t.scl = s.scl ∧ t.sda = s.sda ∧ (∀ a, t.mem.read a = s.mem.read a) ∧ t.draws = s.draws ∧ t.agenda = s.agenda ∧
    t.params = s.params ∧ (s.mode = .idle → t.fault = s.fault) ∧
    (¬ ready s → t.mode = s.mode ∧ t.pend = s.pend ∧ t.trace = s.trace ∧ t.clobbered = s.clobbered)

/-- 10_state R30 and R31: WSCL(v) and WSDA(v) set their line to HIGH for 1 and LOW for 0 and emit the line event; nothing else
but PEND's head changes, whichever move gives the sequencer its turn; how the turn is taken off the agenda is the model's
choice (log entry 1). -/
def Obligations.LineWrites : Prop :=
  ∀ (s : State) (v : Bool) (rest : List MicroOp), sequencerMoves s → s.fault = none → s.mode = .busy →
    (s.pend = .wscl v :: rest → step s = .next { s with
      agenda := afterTurn s.agenda, scl := if v then .high else .low, pend := rest, trace := s.trace ++ [.line .scl v] }) ∧
    (s.pend = .wsda v :: rest → step s = .next { s with
      agenda := afterTurn s.agenda, sda := if v then .high else .low, pend := rest, trace := s.trace ++ [.line .sda v] })

/-- 60_exceptions R214, 10_state R32: all state survives a hold unchanged except TRACE (and PEND's head), which gains one
event, whichever move gives the sequencer its turn (log entry 1). -/
def Obligations.HoldOnlyEmits : Prop :=
  ∀ (s : State) (d : Duration) (rest : List MicroOp), sequencerMoves s → s.fault = none → s.mode = .busy →
    s.pend = .hold d :: rest →
    step s = .next { s with agenda := afterTurn s.agenda, pend := rest, trace := s.trace ++ [.hold d] }

/-- 10_state R35: in BUSY with nothing pending the sequencer emits `Done` and goes IDLE, whichever move gives it its turn (an
empty agenda, the move `sequence`, or a host polling STATUS, log entry 1). -/
def Obligations.DoneCompletesCommand : Prop :=
  ∀ s : State, s.fault = none → s.mode = .busy → s.pend = [] → sequencerMoves s →
    ∃ t, step s = .next t ∧ t.trace = s.trace ++ [.done] ∧ t.mode = .idle ∧ t.pend = [] ∧ t.scl = s.scl ∧ t.sda = s.sda ∧
      t.fault = none ∧ (∀ a, t.mem.read a = s.mem.read a)

/-- 10_state R25: the host reads BUSY in bit 0 of STATUS and 0 in every other bit, of a number, because the spec gives STATUS
no width (log entry 6). MODE becomes BUSY by the acceptance of a command word and by nothing else, and IDLE by the sequencer
step that finds PEND empty and by nothing else (but reset, which leaves 0). -/
def Obligations.StatusShowsBusy : Prop :=
  (∀ s : State, (status s).testBit 0 = decide (s.mode = .busy) ∧ ∀ k, (status s).testBit (k + 1) = false) ∧
  (∀ (s : State) (w : Word) (i : Instr) (rest : List Move), s.agenda = .issue w :: rest → s.fault = none → s.mode = .idle →
    decode w = .ok i → ∃ t, step s = .next t ∧ t.mode = .busy) ∧
  (∀ s : State, sequencerMoves s → s.fault = none → s.mode = .busy → s.pend = [] →
    ∃ t, step s = .next t ∧ t.mode = .idle) ∧
  (∀ s t : State, step s = .next t → s.mode = .idle → t.mode = .busy →
    s.fault = none ∧ ∃ w i, s.agenda.head? = some (.issue w) ∧ decode w = .ok i) ∧
  (∀ s t : State, step s = .next t → s.mode = .busy → t.mode = .idle →
    (s.pend = [] ∧ sequencerMoves s) ∨ s.agenda.head? = some .reset) ∧
  (∀ p : Params, status (State.resetOf p) = 0)

/-- 60_exceptions R201: the two model faults, their codes, their causes and the word recorded as info; nothing else raises
one. The word comes by the agenda's move `issue` (log entry 1). -/
def Obligations.ModelFaultsRecordTheWord : Prop :=
  FaultReason.illegalCmd.code = 1 ∧ FaultReason.cmdWhileBusy.code = 2 ∧
  (∀ (s : State) (w : Word) (rest : List Move), s.agenda = .issue w :: rest → s.fault = none →
    ((∃ r, decode w = .error r) → s.mode = .idle →
      ∃ t, step s = .next t ∧ t.fault = some { reason := .illegalCmd, info := w }) ∧
    (s.mode = .busy → ∃ t, step s = .next t ∧ t.fault = some { reason := .cmdWhileBusy, info := w })) ∧
  (∀ (s t : State) (m : FaultMark), step s = .next t → s.fault = none → t.fault = some m →
    ∃ w, s.agenda.head? = some (.issue w) ∧ m.info = w ∧
      ((m.reason = .illegalCmd ∧ s.mode = .idle ∧ ∃ r, decode w = .error r) ∨ (m.reason = .cmdWhileBusy ∧ s.mode = .busy)))

/-- 10_state R28: a set FAULT is never cleared by a step, only by reset, and the host cannot see it. -/
def Obligations.FaultIsSticky : Prop :=
  (∀ (s t : State) (m : FaultMark), step s = .next t → s.fault = some m → s.agenda.head? ≠ some .reset → t.fault = some m) ∧
  (∀ (s t : State), step s = .next t → s.agenda.head? = some .reset → t.fault = none) ∧
  (∀ (s : State) (f : Option FaultMark), status { s with fault := f } = status s)

/-- 60_exceptions R203: with FAULT set the sequencer has no step, an issue step has no effect, any other step but reset leaves
the block as it was, the state is not a final one (log entry 11), and reset starts a run with no fault. That the sequencer has
no step is shown as the outcome `halted`, the model's choice (log entry 5). -/
def Obligations.FaultedBlockStops : Prop :=
  ∀ (s : State) (m : FaultMark), s.fault = some m →
    (sequencerMoves s → step s = .fault (.halted m)) ∧
    (∀ w rest, s.agenda = .issue w :: rest → step s = .next { s with agenda := rest }) ∧
    (∀ t, step s = .next t → s.agenda.head? ≠ some .reset →
      t.scl = s.scl ∧ t.sda = s.sda ∧ t.mode = s.mode ∧ t.pend = s.pend ∧ t.fault = s.fault ∧ t.trace = s.trace) ∧
    ¬ endedWell s ∧
    (∀ rest, s.agenda = .reset :: rest → ∃ t, step s = .next t ∧ t.fault = none ∧ t.mode = .idle ∧ t.trace = [])

/-- 10_state R37: nothing but WSCL and WSDA steps of the sequencer changes a line; reset alone sets it to its reset level
(R39). -/
def Obligations.OnlyLineWritesChangeLines : Prop :=
  ∀ s t : State, step s = .next t → s.agenda.head? ≠ some .reset →
    (t.scl ≠ s.scl → sequencerMoves s ∧ ∃ v rest, s.pend = .wscl v :: rest ∧ t.scl = if v then .high else .low) ∧
    (t.sda ≠ s.sda → sequencerMoves s ∧ ∃ v rest, s.pend = .wsda v :: rest ∧ t.sda = if v then .high else .low)

/-- 10_state R29, 20_memory R58: a step but reset appends at most one event to TRACE. -/
def Obligations.TraceOnlyGrows : Prop :=
  ∀ s t : State, step s = .next t → s.agenda.head? ≠ some .reset → ∃ es, t.trace = s.trace ++ es ∧ es.length ≤ 1

/-- 00_scope R14, 20_memory R50 and R51: the block never writes memory. A step changes a byte of string memory only by a host
write to a readable byte, and then only the byte written; which bytes are readable is declared by the launch of a run, before
its first command (log entry 3), and changed by nothing else; no step changes the parameters (10_state R21). -/
def Obligations.OnlyTheHostWritesMemory : Prop :=
  ∀ s t : State, step s = .next t →
    t.params = s.params ∧
    (∀ a v rest, s.agenda = .write a v :: rest → s.mem.read a.toNat ≠ none →
      t.mem.read a.toNat = some v ∧ ∀ b, b ≠ a.toNat → t.mem.read b = s.mem.read b) ∧
    (∀ a v rest, s.agenda = .write a v :: rest → s.mem.read a.toNat = none → ∀ b, t.mem.read b = s.mem.read b) ∧
    (∀ cells rest, s.agenda = .launch cells :: rest → s.trace = [] ∧ s.mode = .idle ∧ s.fault = none ∧
      ∀ b, t.mem.read b = (cells.reverse.find? (fun c => c.1 == b)).map (fun c => c.2)) ∧
    ((∀ a v, s.agenda.head? ≠ some (.write a v)) → (∀ cells, s.agenda.head? ≠ some (.launch cells)) →
      ∀ b, t.mem.read b = s.mem.read b) ∧
    ((∀ cells, s.agenda.head? ≠ some (.launch cells)) → ∀ b, t.mem.read b = none ↔ s.mem.read b = none)

/-! ### Reset and invariants -/

/-- 10_state R39: what reset leaves, for every value of the open parameters (log entry 2); reset sends nothing, and the first
event after it is an accepted command's `Cmd`, with the lines still at their reset levels. -/
def Obligations.ResetValues : Prop :=
  (∀ p : Params, (State.resetOf p).scl = p.sclReset ∧ (State.resetOf p).sda = p.sdaReset ∧
    (State.resetOf p).mode = .idle ∧ (State.resetOf p).pend = [] ∧ (State.resetOf p).fault = none ∧
    (State.resetOf p).trace = []) ∧
  (∃ p : Params, State.reset = State.resetOf p) ∧
  (∀ (s : State) (rest : List Move), s.agenda = .reset :: rest →
    ∃ t, step s = .next t ∧ t.scl = s.params.sclReset ∧ t.sda = s.params.sdaReset ∧ t.mode = .idle ∧ t.pend = [] ∧
      t.fault = none ∧ t.trace = []) ∧
  (∀ s t : State, traceInv s → s.trace = [] → s.agenda.head? ≠ some .reset → step s = .next t →
    t.scl = s.scl ∧ t.sda = s.sda ∧ (t.trace = [] ∨ ∃ w, t.trace = [.cmd w]))

/-- 70 R230: after reset the block takes no step of its own and waits for the first command word, in a state in which a run
has ended well (with an empty agenda, log entry 11); waiting is an unchanged next state (log entry 5). -/
def Obligations.ResetWaits : Prop :=
  ∀ p : Params, step (State.resetOf p) = .next (State.resetOf p) ∧ endedWell (State.resetOf p)

/-- Commands never interleave (20_memory R59, the spec's own inference from R34 and R35): every step keeps TRACE a sequence of
whole commands, the last one open exactly when MODE is BUSY. -/
def Obligations.StepKeepsCommandsApart : Prop := ∀ s t : State, traceInv s → step s = .next t → traceInv t

/-- 10_state R27, and R40 (the spec's own inference): every step keeps PEND empty when IDLE, an SREAD last in PEND, and PEND
leading the lines to bus idle. -/
def Obligations.StepKeepsLinesSettled : Prop :=
  ∀ s t : State, pendInv s ∧ settleInv s → step s = .next t → pendInv t ∧ settleInv t

/-- At an IDLE point both lines are HIGH once TRACE holds a line write, and at their reset levels before (10_state R40, the
spec's own inference from R39 and R107). -/
def Obligations.IdleLines : Prop :=
  ∀ s : State, pendInv s → settleInv s → s.mode = .idle →
    (s.trace.any isLineEvent = true → s.scl = .high ∧ s.sda = .high) ∧
    (s.trace.any isLineEvent = false → s.scl = s.params.sclReset ∧ s.sda = s.params.sdaReset)

/-- 10_state R29 to R31: every step keeps the lines equal to what TRACE's line writes make of the reset levels. -/
def Obligations.StepKeepsLinesAsTraced : Prop := ∀ s t : State, linesInv s → step s = .next t → linesInv t

/-- The string memory keeps its canonical form in every step (log entry 3, the model's form of 20_memory R50). -/
def Obligations.StepKeepsMemoryCanonical : Prop := ∀ s t : State, memInv s → step s = .next t → memInv t

/-- The invariants hold right after reset, for every value of the open parameters. -/
def Obligations.InvariantsAtReset : Prop :=
  ∀ p : Params, traceInv (State.resetOf p) ∧ pendInv (State.resetOf p) ∧ settleInv (State.resetOf p) ∧
    linesInv (State.resetOf p) ∧ memInv (State.resetOf p)

/-! ### String memory (20_memory) -/

/-- 42_lcd_commands R159: SREAD(p, i), whichever move gives the sequencer its turn (log entry 1); where a byte is read, of a
byte the host has left alone (an overwritten one: OverwrittenByteIsADraw, log entry 4). A read that is not admitted (20_memory
R51, with no wrap-around) is the outcome `stuckRead`, the model's choice (log entry 5); and such an SREAD stays stuck, in
BUSY, with no event and never admitted, in every step but reset (60_exceptions R202). -/
def Obligations.SreadStep : Prop :=
  (∀ (s : State) (p : Addr) (i : Fin 17) (rest : List MicroOp), sequencerMoves s → s.fault = none → s.mode = .busy →
    s.pend = .sread p i :: rest →
    (i.val = 16 → s.params.strPeek16 = false → step s = .next { s with agenda := afterTurn s.agenda, pend := rest }) ∧
    (i.val < 16 ∨ s.params.strPeek16 = true → ∀ c, p.toNat + i.val ∉ s.clobbered → p.toNat + i.val < 2 ^ addrWidth s.params →
      s.mem.read (p.toNat + i.val) = some c → (c = 0 ∨ i.val = 16) →
      step s = .next { s with
        agenda := afterTurn s.agenda, pend := rest, trace := s.trace ++ [.read (p.toNat + i.val) c] }) ∧
    (∀ (j : Fin 17) (c : Byte), j.val = i.val + 1 → p.toNat + i.val ∉ s.clobbered →
      p.toNat + i.val < 2 ^ addrWidth s.params → s.mem.read (p.toNat + i.val) = some c → c ≠ 0 →
      step s = .next { s with
        agenda := afterTurn s.agenda
        pend := chr c ++ [.sread p j] ++ rest
        trace := s.trace ++ [.read (p.toNat + i.val) c] }) ∧
    (i.val < 16 ∨ s.params.strPeek16 = true → notAdmitted s (p.toNat + i.val) →
      step s = .fault (.stuckRead (p.toNat + i.val)))) ∧
  (∀ (s t : State) (p : Addr) (i : Fin 17) (rest : List MicroOp), s.mode = .busy → s.pend = .sread p i :: rest →
    (i.val < 16 ∨ s.params.strPeek16 = true) → notAdmitted s (p.toNat + i.val) → s.agenda.head? ≠ some .reset →
    step s = .next t →
    t.mode = .busy ∧ t.pend = s.pend ∧ t.trace = s.trace ∧ t.params = s.params ∧ notAdmitted t (p.toNat + i.val))

/-- 20_memory R60: every read of a byte the host has overwritten during the command, that at index 16 included, returns a
draw: the event carries the free value `Config.freeByte`, on which nothing is assumed, and each draw is a fresh one (log entry
4). At index 16 the draw is discarded; below it, it ends or continues the loop as any byte does (42_lcd_commands R159). -/
def Obligations.OverwrittenByteIsADraw : Prop :=
  ∀ (s : State) (p : Addr) (i : Fin 17) (rest : List MicroOp), sequencerMoves s → s.fault = none → s.mode = .busy →
    s.pend = .sread p i :: rest → (i.val < 16 ∨ s.params.strPeek16 = true) → p.toNat + i.val ∈ s.clobbered →
    p.toNat + i.val < 2 ^ addrWidth s.params → s.mem.read (p.toNat + i.val) ≠ none →
    ∃ ops, step s = .next { s with
        agenda := afterTurn s.agenda
        pend := ops
        draws := s.draws + 1
        trace := s.trace ++ [.read (p.toNat + i.val) (Config.freeByte s.draws)] } ∧
      (Config.freeByte s.draws = 0 ∨ i.val = 16 → ops = rest) ∧
      (Config.freeByte s.draws ≠ 0 → i.val < 16 → ∃ j : Fin 17, j.val = i.val + 1 ∧
        ops = chr (Config.freeByte s.draws) ++ [.sread p j] ++ rest)

/-- 20_memory R60: a host write to a readable address p to p + 16 of a string command in progress marks it, and keeps every
earlier mark; one to another address, or outside a string command, marks nothing. The pointer is that of the SREAD pending
last (log entry 4). A write to a byte that is not readable leaves it so, and the block as it was; one outside the address
space is the outcome `writeOutside` (log entry 3). -/
def Obligations.HostWriteMarksStringBytes : Prop :=
  ∀ (s : State) (a : Addr) (v : Byte) (rest : List Move), s.agenda = .write a v :: rest →
    (2 ^ addrWidth s.params ≤ a.toNat → step s = .fault (.writeOutside a.toNat)) ∧
    (a.toNat < 2 ^ addrWidth s.params → s.mem.read a.toNat = none → step s = .next { s with agenda := rest }) ∧
    (a.toNat < 2 ^ addrWidth s.params → s.mem.read a.toNat ≠ none →
      ∃ t, step s = .next t ∧ t.mem.read a.toNat = some v ∧ t.trace = s.trace ∧ t.pend = s.pend ∧
        (∀ b, b ∈ s.clobbered → b ∈ t.clobbered) ∧ (∀ b, b ∈ t.clobbered → b ∈ s.clobbered ∨ b = a.toNat) ∧
        (∀ (ops : List MicroOp) (p : Addr) (i : Fin 17), s.pend = ops ++ [.sread p i] →
          ops.all (fun op => !isSread op) = true →
          (p.toNat ≤ a.toNat ∧ a.toNat ≤ p.toNat + 16 → a.toNat ∈ t.clobbered) ∧
          (¬ (p.toNat ≤ a.toNat ∧ a.toNat ≤ p.toNat + 16) → t.clobbered = s.clobbered)) ∧
        (s.pend.all (fun op => !isSread op) = true → t.clobbered = s.clobbered))

/-! ### The transport (40_transport) -/

/-- 40_transport R103: from IDLE, I2C_OUT is accepted and, left alone, performs frame(ARG[7:0]) and completes with both lines
HIGH; memory and everything else is as before. -/
def Obligations.I2cOutSendsOneFrame : Prop :=
  ∀ (arg : BitVec 32) (s : State), ready s → s.agenda = [] →
    runsTo (.i2cOut arg) s (frame (argByte arg)) (opsEvents (frame (argByte arg))) ∧
    linesAfterAll s.lines (opsEvents (frame (argByte arg))) = bothHigh

/-- The counts of a frame and of its parts (40_transport R105, the spec's own inference from R101 and R102). -/
def Obligations.FrameCounts : Prop :=
  ∀ b : Byte, (frame b).length = 132 ∧
    (opsEvents (frame b)).countP isLineEvent = 67 ∧ (opsEvents (frame b)).countP isHoldEvent = 65 ∧
    (opsEvents (frame b)).countP (fun e => e == .line .scl true || e == .line .scl false) = 43 ∧
    (opsEvents (frame b)).countP (fun e => e == .line .sda true || e == .line .sda false) = 24 ∧
    (opsEvents (frame b)).countP (fun e => e == .line .scl true) = 20 + 2 ∧
    (startOps.length = 6 ∧ (opsEvents startOps).countP isLineEvent = 4) ∧
    ((addrSeq.flatMap (bitOps 1)).length = 48 ∧ (opsEvents (addrSeq.flatMap (bitOps 1))).countP isLineEvent = 24) ∧
    (ackp.length = 6 ∧ (opsEvents ackp).countP isLineEvent = 3) ∧
    (((payloadBits b).flatMap (bitOps 50)).length = 48 ∧
      (opsEvents ((payloadBits b).flatMap (bitOps 50))).countP isLineEvent = 24) ∧
    (stopOps.length = 6 ∧ (opsEvents stopOps).countP isLineEvent = 3)

/-- 40_transport R102, 70 R236: the holds of a frame, each its own event, in order: 1 unit at every step of an address bit, 50
at every step of a payload bit, and the open holds of the start, the four acknowledge-shaped pulses and the stop. -/
def Obligations.FrameHolds : Prop :=
  ∀ b : Byte, (opsEvents (frame b)).filter isHoldEvent =
    ([Duration.named .start1, .named .start2] ++ List.replicate 24 (Duration.units 1 .transport)
      ++ [Duration.named .ackSu, .named .ackHi, .named .ackLo] ++ List.replicate 24 (Duration.units 50 .transport)
      ++ (List.replicate 3 [Duration.named .ackSu, .named .ackHi, .named .ackLo]).flatten
      ++ [Duration.named .stopSu, .named .stopHi, .named .stopEnd]).map Event.hold

/-- SDA changes under a LOW clock but for the start's falling and the stop's rising edge (40_transport R106, the spec's own
inference from R102). Event 3 is the start's WSDA(0), event 130 the stop's final WSDA(1). -/
def Obligations.FrameLineDiscipline : Prop :=
  ∀ (b : Byte) (ls : Lines),
    (opsEvents (frame b))[3]? = some (.line .sda false) ∧ (opsEvents (frame b))[130]? = some (.line .sda true) ∧
    linesAfterAll ls ((opsEvents (frame b)).take 3) = { scl := .high, sda := .high } ∧
    linesAfterAll ls ((opsEvents (frame b)).take 130) = { scl := .high, sda := .low } ∧
    ∀ k v, 3 < k → k < 130 → (opsEvents (frame b))[k]? = some (.line .sda v) →
      (linesAfterAll ls ((opsEvents (frame b)).take k)).scl = .low

/-- The frame theorem of 40_transport R109 (the spec's own inference from R102, R106 and R108): for every b and every prior
level, frame(b) has exactly one START and exactly one decoded frame, well formed with payload b, whose 21 samples are the
address bits 0 1 0 0 0 0 0 0 of R100, 0, the bits of b from bit 7 down, 0, 0 0 and 0; one STOP more exactly when SDA was LOW,
which closes no frame. -/
def Obligations.FrameDecodesToItsPayload : Prop :=
  ∀ (b : Byte) (ls : Lines),
    (wires ls (opsEvents (frame b))).count .start = 1 ∧
    (wires ls (opsEvents (frame b))).count .stop = (if ls.sda = .low then 2 else 1) ∧
    (∃ samples, decodedFrames (wires ls (opsEvents (frame b))) = [samples] ∧ samples.length = 21 ∧
      samples = [.low, .high, .low, .low, .low, .low, .low, .low] ++ [.low]
        ++ [7, 6, 5, 4, 3, 2, 1, 0].map (fun k => if b.getLsbD k then .high else .low) ++ [.low] ++ [.low, .low] ++ [.low] ∧
      framePayload samples = some b) ∧
    (wires ls (opsEvents (frame b))).getLast? = some .stop ∧
    wires (linesAfterAll ls ((opsEvents (frame b)).take 130)) ((opsEvents (frame b)).drop 130) = [.stop]

/-! ### The nibble writer (41_nibble) -/

/-- 41_nibble R131: the nibble's place in bits 5 to 2, the other bits 0, the range, and that x[3:0] has no effect. -/
def Obligations.NibblePlacement : Prop :=
  ∀ x : Byte, nibpos x = (x >>> 4) <<< 2 ∧ nibpos x = (x.extractLsb' 4 4).setWidth 8 <<< 2 ∧
    (nibpos x).extractLsb' 2 4 = x.extractLsb' 4 4 ∧ (nibpos x).extractLsb' 0 2 = 0 ∧ (nibpos x).extractLsb' 6 2 = 0 ∧
    (nibpos x).toNat ≤ 0x3C ∧ 4 ∣ (nibpos x).toNat ∧
    ∀ y : Byte, y.extractLsb' 4 4 = x.extractLsb' 4 4 → nibpos y = nibpos x

/-- The additions of the nibble writer are bitwise or, without a carry, up to 0x3F (41_nibble R134, the spec's own inference
from R130 and R131). -/
def Obligations.PacketArithmetic : Prop :=
  ∀ (x : Byte) (rs : BitVec 1),
    nibpos x + rsBit rs = nibpos x ||| rsBit rs ∧
    nibpos x + rsBit rs + enableOff = nibpos x ||| rsBit rs ||| 0x02 ∧
    nibpos x + rsBit rs + enableOff - enableOff = nibpos x ||| rsBit rs ∧
    (nibpos x + rsBit rs + enableOff).toNat ≤ 0x3F

/-- 41_nibble R133: from IDLE, LCD_NIBBLE is accepted and, left alone, performs nib(x, rs) and completes; both lines HIGH. -/
def Obligations.LcdNibbleCompletes : Prop :=
  ∀ (x : Byte) (rs : BitVec 1) (s : State), ready s → s.agenda = [] →
    runsTo (.lcdNibble x rs) s (nib x rs) (opsEvents (nib x rs)) ∧
    linesAfterAll s.lines (opsEvents (nib x rs)) = bothHigh

/-- The four packets of a nibble, the fields of each, and the count of micro-operations (41_nibble R135, the spec's own
inference from R132, R134 and R105). -/
def Obligations.NibblePackets : Prop :=
  ∀ (x : Byte) (rs : BitVec 1) (ls : Lines),
    payloads ls (opsEvents (nib x rs)) =
      [rsBit rs, nibpos x ||| rsBit rs, nibpos x ||| rsBit rs ||| 0x02, nibpos x ||| rsBit rs] ∧
    (payloads ls (opsEvents (nib x rs))).map portE = [false, false, true, false] ∧
    (payloads ls (opsEvents (nib x rs))).map (fun q => (latchOf q).rs) = [rs, rs, rs, rs] ∧
    (payloads ls (opsEvents (nib x rs))).map (fun q => (latchOf q).nibble) =
      [0, x.extractLsb' 4 4, x.extractLsb' 4 4, x.extractLsb' 4 4] ∧
    (nib x rs).length = 530

/-- One latch per nibble, and a spurious one before it when the port had E = 1 (41_nibble R137, the spec's own inference from
R135 and R136). -/
def Obligations.OneLatchPerNibble : Prop :=
  ∀ (x : Byte) (rs : BitVec 1) (ls : Lines) (port : Byte),
    (portE port = false → latches port (payloads ls (opsEvents (nib x rs))) = [{ rs := rs, nibble := x.extractLsb' 4 4 }]) ∧
    (portE port = true → latches port (payloads ls (opsEvents (nib x rs))) =
      [{ rs := rs, nibble := 0 }, { rs := rs, nibble := x.extractLsb' 4 4 }]) ∧
    ((payloads ls (opsEvents (nib x rs))).getLast?.map portE = some false)

/-! ### The byte, command and string layer (42_lcd_commands) -/

/-- 42_lcd_commands R152: from IDLE, LCD_CHAR is accepted and, left alone, performs chr(c) and completes; both lines HIGH. -/
def Obligations.LcdCharCompletes : Prop :=
  ∀ (c : Byte) (s : State), ready s → s.agenda = [] →
    runsTo (.lcdChar c) s ([.hold (.named .dataPre)] ++ nib c 1 ++ nib (c <<< 4) 1) (opsEvents (chr c)) ∧
    linesAfterAll s.lines (opsEvents (chr c)) = bothHigh

/-- 42_lcd_commands R154: from IDLE, LCD_CMD is accepted and, left alone, performs cmd(c) and completes; both lines HIGH. -/
def Obligations.LcdCmdCompletes : Prop :=
  ∀ (c : Byte) (s : State), ready s → s.agenda = [] →
    runsTo (.lcdCmd c) s
      ([.hold (.named .cmdPre)] ++ nib c 0 ++ [.hold (.units 1 .command)] ++ nib (c <<< 4) 0) (opsEvents (cmd c)) ∧
    linesAfterAll s.lines (opsEvents (cmd c)) = bothHigh

/-- 42_lcd_commands R156: from IDLE, LCD_INIT is accepted and, left alone, performs the power-up wait and the five command
writes in their order, and completes; both lines HIGH. -/
def Obligations.LcdInitCompletes : Prop :=
  ∀ s : State, ready s → s.agenda = [] →
    runsTo .lcdInit s
      ([.hold (.named .powerUp)] ++ cmd 0x32 ++ cmd s.params.cmdFuncset ++ cmd s.params.cmdDispctl ++ cmd s.params.cmdClear
        ++ cmd s.params.cmdEntry)
      (opsEvents (initOps s.params)) ∧
    linesAfterAll s.lines (opsEvents (initOps s.params)) = bothHigh

/-- 42_lcd_commands R158: from IDLE, LCD_GOTO is accepted; on the display it writes the DDRAM address command and waits, off
the display it completes with no line write at all. -/
def Obligations.LcdGotoCompletes : Prop :=
  ∀ (col row : Byte) (s : State), ready s → s.agenda = [] →
    (row.toNat < 2 → col.toNat < 16 →
      runsTo (.lcdGoto col row) s (cmd ((if row = 0 then 0x80 else 0xC0) ||| col) ++ [.hold (.named .gotoPost)])
        (opsEvents (cmd ((if row = 0 then 0x80 else 0xC0) ||| col)) ++ [.hold (.named .gotoPost)])) ∧
    (¬ (row.toNat < 2 ∧ col.toNat < 16) → runsTo (.lcdGoto col row) s [] [] ∧
      (completed s (encode (.lcdGoto col row)) []).scl = s.scl ∧ (completed s (encode (.lcdGoto col row)) []).sda = s.sda)

/-- 42_lcd_commands R160: from IDLE, LCD_STR of a string of readable bytes reads and writes its characters one at a time until
the terminator or 16 of them, and completes; the reads are exactly those of R159 for either value of P_STR_PEEK16. -/
def Obligations.LcdStrWritesTheString : Prop :=
  ∀ (p : Addr) (cs : List Byte) (d : Byte) (s : State), ready s → s.agenda = [] → holdsString s p cs d →
    runsTo (.lcdStr p) s [.sread p 0] (stringEvents s p cs d)

/-- 42_lcd_commands R162: LCD_STR_AT positions as LCD_GOTO at the 0-based coordinates, and writes the string whether or not
the position was on the display. -/
def Obligations.LcdStrAtPositionsThenWrites : Prop :=
  ∀ (row1 col1 : Byte) (p : Addr) (cs : List Byte) (d : Byte) (s : State), ready s → s.agenda = [] → holdsString s p cs d →
    runsTo (.lcdStrAt row1 col1 p) s (expand s.params (.lcdGoto (col1 - 1) (row1 - 1)) ++ [.sread p 0])
      (opsEvents (gotoOps (col1 - 1) (row1 - 1)) ++ stringEvents s p cs d)

/-- 42_lcd_commands R163: LCD_CHAR_AT positions as LCD_GOTO at the 0-based coordinates, and writes the character whether or
not the position was on the display; both lines HIGH at the end. -/
def Obligations.LcdCharAtPositionsThenWrites : Prop :=
  ∀ (row1 col1 c : Byte) (s : State), ready s → s.agenda = [] →
    runsTo (.lcdCharAt row1 col1 c) s (expand s.params (.lcdGoto (col1 - 1) (row1 - 1)) ++ chr c)
      (opsEvents (gotoOps (col1 - 1) (row1 - 1)) ++ opsEvents (chr c)) ∧
    linesAfterAll s.lines (opsEvents (gotoOps (col1 - 1) (row1 - 1)) ++ opsEvents (chr c)) = bothHigh

/-- 42_lcd_commands R161: the 1-based translation is `(v - 1) mod 256`: 1 and 2 to 0 and 1, 1 to 16 to 0 to 15, and 0 to 255,
which positioning rejects; a wrapper writes whether or not the position was in range. -/
def Obligations.OneBasedTranslation : Prop :=
  (∀ v : Byte, (zeroBased v).toNat = (v.toNat + 255) % 256) ∧
  (∀ v : Byte, v ≠ 0 → (zeroBased v).toNat = v.toNat - 1) ∧ zeroBased 0 = 255 ∧
  (∀ v : Byte, gotoOneBased 0 v = [] ∧ gotoOneBased v 0 = []) ∧
  (∀ (row1 col1 : Byte), gotoOneBased row1 col1 ≠ [] ↔
    (1 ≤ row1.toNat ∧ row1.toNat ≤ 2 ∧ 1 ≤ col1.toNat ∧ col1.toNat ≤ 16)) ∧
  (∀ (p : Params) (row1 col1 c : Byte) (q : Addr), gotoOneBased row1 col1 = [] →
    expand p (.lcdCharAt row1 col1 c) = chr c ∧ expand p (.lcdStrAt row1 col1 q) = [.sread q 0]) ∧
  (∀ (p : Params) (row1 col1 c : Byte) (q : Addr), gotoOneBased row1 col1 ≠ [] →
    expand p (.lcdCharAt row1 col1 c) = gotoOps (row := row1 - 1) (col := col1 - 1) ++ chr c ∧
    expand p (.lcdStrAt row1 col1 q) = gotoOps (row := row1 - 1) (col := col1 - 1) ++ [.sread q 0])

/-- 42_lcd_commands R157, and R168 (the spec's own inference): the positioning command is the row's base plus the column,
within 0x80 to 0x8F for row 0 and 0xC0 to 0xCF for row 1. -/
def Obligations.PositioningCommandRange : Prop :=
  ∀ (col row : Byte), row.toNat < 2 → col.toNat < 16 →
    ddramBase row ||| col = ddramBase row + col ∧
    (row = 0 → 0x80 ≤ (ddramBase row ||| col).toNat ∧ (ddramBase row ||| col).toNat ≤ 0x8F) ∧
    (row = 1 → 0xC0 ≤ (ddramBase row ||| col).toNat ∧ (ddramBase row ||| col).toNat ≤ 0xCF) ∧
    gotoOps col row = cmd (ddramBase row ||| col) ++ [.hold (.named .gotoPost)]

/-- The tagging of 42_lcd_commands R164 (the spec's own inference): every packet of a character write has RS = 1, every packet
of a command write, of initialize and of positioning has RS = 0. -/
def Obligations.DataAndCommandTagging : Prop :=
  ∀ (ls : Lines) (p : Params) (c col row : Byte) (q : Addr) (cs : List Byte) (b : Byte),
    (b ∈ payloads ls (opsEvents (chr c)) → (latchOf b).rs = 1) ∧
    (b ∈ payloads ls (charEvents q 0 cs) → (latchOf b).rs = 1) ∧
    (b ∈ payloads ls (opsEvents (cmd c)) → (latchOf b).rs = 0) ∧
    (b ∈ payloads ls (opsEvents (initOps p)) → (latchOf b).rs = 0) ∧
    (b ∈ payloads ls (opsEvents (gotoOps col row)) → (latchOf b).rs = 0)

/-- The round trip of 42_lcd_commands R165 (the spec's own inference): a command write produces two latches that rebuild its
byte, upper nibble first, with RS = 0, and a character write the same with RS = 1, when the port had E = 0 before. -/
def Obligations.NibbleRoundTrip : Prop :=
  ∀ (ls : Lines) (port c : Byte), portE port = false →
    latches port (payloads ls (opsEvents (cmd c))) =
      [{ rs := 0, nibble := c.extractLsb' 4 4 }, { rs := 0, nibble := c.extractLsb' 0 4 }] ∧
    lcdBytes (latches port (payloads ls (opsEvents (cmd c)))) = [{ rs := 0, byte := c, consistent := true }] ∧
    latches port (payloads ls (opsEvents (chr c))) =
      [{ rs := 1, nibble := c.extractLsb' 4 4 }, { rs := 1, nibble := c.extractLsb' 0 4 }] ∧
    lcdBytes (latches port (payloads ls (opsEvents (chr c)))) = [{ rs := 1, byte := c, consistent := true }]

/-- 42_lcd_commands R155, R156: the LCD bytes of initialize are 0x32 and the four parameters, in this order, all with RS = 0;
at the parameters' defaults (00_scope R10) its latches are the ten nibbles of R156's example. -/
def Obligations.InitializeSendsFiveBytes : Prop :=
  ∀ (ls : Lines) (port : Byte) (p : Params), portE port = false →
    lcdBytes (latches port (payloads ls (opsEvents (initOps p)))) =
      [0x32, p.cmdFuncset, p.cmdDispctl, p.cmdClear, p.cmdEntry].map (fun c => { rs := 0, byte := c, consistent := true }) ∧
    latches port (payloads ls (opsEvents (initOps p.atDefaults))) =
      [0x3, 0x2, 0x2, 0x8, 0x0, 0xC, 0x0, 0x1, 0x0, 0x6].map (fun d => { rs := 0, nibble := d })

/-- 42_lcd_commands R159, R160: what an ideal receiver sees of a string write is its characters, in order, as data bytes. -/
def Obligations.StringReachesTheReceiver : Prop :=
  ∀ (ls : Lines) (port : Byte) (s : State) (p : Addr) (cs : List Byte) (d : Byte), portE port = false →
    lcdBytes (latches port (payloads ls (stringEvents s p cs d))) =
      cs.map (fun c => { rs := 1, byte := c, consistent := true })

/-- 42_lcd_commands R166: no retained state: in two states that accept a command and agree on the parameters (configuration,
not state), the same command leaves the same micro-operations and, left alone, adds the same events to TRACE; only the events
of LCD_STR and LCD_STR_AT depend on string memory. -/
def Obligations.NoRetainedState : Prop :=
  ∀ (i : Instr) (s s' t t' : State), ready s → ready s' → s.params = s'.params →
    exec i s = .next t → exec i s' = .next t' →
    t.pend = t'.pend ∧
    ∀ (n : Nat) (u : State), s.agenda = [] → s'.agenda = [] → (readsString i = true → s.mem = s'.mem) →
      runSteps n t = .next u →
      ∃ u' es, runSteps n t' = .next u' ∧ u'.mode = u.mode ∧ u.trace = s.trace ++ es ∧ u'.trace = s'.trace ++ es

/-- 10_state R36, 60_exceptions R200, and 42_lcd_commands R167 (the spec's own inference): every command of every form, issued
to an IDLE block and left alone, runs to completion without a fault, in at most 18057 steps; a string command needs p to p +
16 readable. That a run has ended well asks an empty agenda (log entry 11). -/
def Obligations.EveryCommandCompletes : Prop :=
  ∀ (i : Instr) (s : State), ready s → s.agenda = [] → admitsString s i →
    ∃ t n u, exec i s = .next t ∧ n ≤ 18057 ∧ runSteps n t = .next u ∧ endedWell u ∧
      (∀ a, u.mem.read a = s.mem.read a) ∧ u.params = s.params

/-! ### Timing (10_state R32, 70 R243, R244) -/

/-- The minimum durations of 70 R243 (the spec's own inference from R102, R132 and R151 to R163), as the sums of the holds,
for every timing; a wrapper's is its positioning's plus its write's. -/
def Obligations.MinimumDurations : Prop :=
  ∀ (α : Type) [AddCommMonoid α] (τ : Timing α) (b x c col row : Byte) (rs : BitVec 1) (p : Params) (s : State) (q : Addr)
    (cs : List Byte) (d : Byte),
    holdSum τ (opsEvents (frame b)) = frameMin τ ∧
    holdSum τ (opsEvents (nib x rs)) = nibbleMin τ ∧
    holdSum τ (opsEvents (chr c)) = charMin τ ∧
    holdSum τ (opsEvents (cmd c)) = cmdMin τ ∧
    holdSum τ (opsEvents (initOps p)) = τ.named .powerUp + 5 • cmdMin τ ∧
    (onDisplay col row = true → holdSum τ (opsEvents (gotoOps col row)) = cmdMin τ + τ.named .gotoPost) ∧
    (onDisplay col row = false → holdSum τ (opsEvents (gotoOps col row)) = 0) ∧
    holdSum τ (stringEvents s q cs d) = cs.length • charMin τ ∧
    (onDisplay col row = true → holdSum τ (opsEvents (gotoOps col row) ++ opsEvents (chr c)) =
      cmdMin τ + τ.named .gotoPost + charMin τ) ∧
    (onDisplay col row = true → holdSum τ (opsEvents (gotoOps col row) ++ stringEvents s q cs d) =
      cmdMin τ + τ.named .gotoPost + cs.length • charMin τ) ∧
    (onDisplay col row = false → holdSum τ (opsEvents (gotoOps col row) ++ opsEvents (chr c)) = charMin τ) ∧
    (onDisplay col row = false → holdSum τ (opsEvents (gotoOps col row) ++ stringEvents s q cs d) = cs.length • charMin τ)

/-- Whatever the real times of TRACE's events under the timing law of 10_state R32, every command issued to a ready block and
left alone until it is IDLE again takes at least its minimum duration of 70 R243 (the spec's own inference) from its `Cmd`,
the first event it adds, to its `Done`, the last: F_min, N_min, C_min, K_min and so on, and k times C_min for a string of k
characters. -/
def Obligations.CommandTakesItsHolds : Prop :=
  ∀ (τ : Timing ℝ) (i : Instr) (k n : Nat) (s t u : State) (time : Nat → ℝ), ready s → s.agenda = [] → sendsChars s k i →
    exec i s = .next t → runSteps n t = .next u → u.mode = .idle → timingLaw τ u.trace time →
    u.trace[s.trace.length]? = some (.cmd (encode i)) ∧ u.trace.getLast? = some .done ∧
    time s.trace.length + commandMin τ k i ≤ time (u.trace.length - 1) ∧
    (timingInRange τ → 0 ≤ commandMin τ k i)

/-- The counts of every command's events, `Cmd` and `Done` included, of 70 R244 (the spec's own inference from R105, R135 and
R151 to R160). -/
def Obligations.EventCounts : Prop :=
  ∀ (ls : Lines) (b x c col row : Byte) (rs : BitVec 1) (p : Params) (s : State) (q : Addr) (cs : List Byte) (d : Byte),
    countsOf ls (opsEvents (frame b)) = ⟨1, 67, 65, 0, 134⟩ ∧
    countsOf ls (opsEvents (nib x rs)) = ⟨4, 268, 262, 0, 532⟩ ∧
    countsOf ls (opsEvents (chr c)) = ⟨8, 536, 525, 0, 1063⟩ ∧
    countsOf ls (opsEvents (cmd c)) = ⟨8, 536, 526, 0, 1064⟩ ∧
    countsOf ls (opsEvents (initOps p)) = ⟨40, 2680, 2631, 0, 5313⟩ ∧
    (onDisplay col row = true → countsOf ls (opsEvents (gotoOps col row)) = ⟨8, 536, 527, 0, 1065⟩) ∧
    (onDisplay col row = false → countsOf ls (opsEvents (gotoOps col row)) = ⟨0, 0, 0, 0, 2⟩) ∧
    (cs.length < 16 → countsOf ls (stringEvents s q cs d) =
      ⟨8 * cs.length, 536 * cs.length, 525 * cs.length, cs.length + 1, 1061 * cs.length + cs.length + 3⟩) ∧
    (cs.length = 16 → countsOf ls (stringEvents s q cs d) =
      ⟨128, 8576, 8400, if s.params.strPeek16 then 17 else 16, if s.params.strPeek16 then 16995 else 16994⟩) ∧
    (onDisplay col row = true →
      countsOf ls (opsEvents (gotoOps col row) ++ opsEvents (chr c)) = ⟨8 + 8, 536 + 536, 527 + 525, 0, 1063 + 1063⟩) ∧
    (onDisplay col row = true → cs.length < 16 → countsOf ls (opsEvents (gotoOps col row) ++ stringEvents s q cs d) =
      ⟨8 + 8 * cs.length, 536 + 536 * cs.length, 527 + 525 * cs.length, cs.length + 1,
        1063 + (1061 * cs.length + cs.length + 3)⟩) ∧
    (onDisplay col row = true → cs.length = 16 → countsOf ls (opsEvents (gotoOps col row) ++ stringEvents s q cs d) =
      ⟨8 + 128, 536 + 8576, 527 + 8400, if s.params.strPeek16 then 17 else 16,
        1063 + (if s.params.strPeek16 then 16995 else 16994)⟩) ∧
    (onDisplay col row = false →
      countsOf ls (opsEvents (gotoOps col row) ++ opsEvents (chr c)) = ⟨8, 536, 525, 0, 1063⟩ ∧
      countsOf ls (opsEvents (gotoOps col row) ++ stringEvents s q cs d) = countsOf ls (stringEvents s q cs d))
end

