-- ==== Sys2Proof/Laws/Encoding.lean ====
section
/-! SUPPORT. The fields of a word and the word of fields are inverse to each other; a mask acts field by field. -/

namespace Sys2Proof

/-- The fields of the word with given fields are those fields. -/
@[simp] theorem fieldsOf_toWord (f : Fields) : fieldsOf f.toWord = f := by
  obtain ⟨op, r0, rs, row, col, arg⟩ := f
  simp only [fieldsOf, Fields.toWord, Fields.mk.injEq]
  refine ⟨?_, ?_, ?_, ?_, ?_, ?_⟩ <;> apply BitVec.eq_of_getLsbD_eq <;> intro i hi <;>
    simp only [BitVec.getLsbD_extractLsb', BitVec.getLsbD_append, hi, decide_true, Bool.true_and]
  all_goals
    repeat' split
    all_goals first | omega | (congr 1; omega)

/-- The word with the fields of a word is that word. -/
@[simp] theorem toWord_fieldsOf (w : Word) : (fieldsOf w).toWord = w := by
  apply BitVec.eq_of_getLsbD_eq
  intro i hi
  simp only [fieldsOf, Fields.toWord, BitVec.getLsbD_extractLsb', BitVec.getLsbD_append]
  repeat' split
  all_goals rw [decide_eq_true (by omega), Bool.true_and]; congr 1; omega

theorem toWord_injective {f g : Fields} (h : f.toWord = g.toWord) : f = g := by
  rw [← fieldsOf_toWord f, h, fieldsOf_toWord]

/-- A mask and a match act field by field. -/
theorem toWord_and_eq_iff (f m g : Fields) : f.toWord &&& m.toWord = g.toWord ↔
    f.op &&& m.op = g.op ∧ f.r0 &&& m.r0 = g.r0 ∧ f.rs &&& m.rs = g.rs ∧ f.row &&& m.row = g.row ∧
      f.col &&& m.col = g.col ∧ f.arg &&& m.arg = g.arg := by
  have h : f.toWord &&& m.toWord = Fields.toWord
      { op := f.op &&& m.op, r0 := f.r0 &&& m.r0, rs := f.rs &&& m.rs, row := f.row &&& m.row,
        col := f.col &&& m.col, arg := f.arg &&& m.arg } := by
    unfold Fields.toWord
    rw [BitVec.and_append, BitVec.and_append, BitVec.and_append, BitVec.and_append, BitVec.and_append]
  rw [h]
  constructor
  · intro e
    have := toWord_injective e
    subst this
    simp
  · rintro ⟨a, b, c, d, e, k⟩
    rw [a, b, c, d, e, k]

/-- The fields of a row's mask. -/
def Opcode.maskFields : Opcode → Fields
  | .i2cOut => { op := 0xFF, r0 := 0x7F, rs := 1, row := 0xFF, col := 0xFF, arg := 0 }
  | .lcdNibble => { op := 0xFF, r0 := 0x7F, rs := 0, row := 0xFF, col := 0xFF, arg := 0xFFFFFF00 }
  | .lcdChar => { op := 0xFF, r0 := 0x7F, rs := 1, row := 0xFF, col := 0xFF, arg := 0xFFFFFF00 }
  | .lcdCmd => { op := 0xFF, r0 := 0x7F, rs := 1, row := 0xFF, col := 0xFF, arg := 0xFFFFFF00 }
  | .lcdInit => { op := 0xFF, r0 := 0x7F, rs := 1, row := 0xFF, col := 0xFF, arg := 0xFFFFFFFF }
  | .lcdStr => { op := 0xFF, r0 := 0x7F, rs := 1, row := 0xFF, col := 0xFF, arg := 0 }
  | .lcdGoto => { op := 0xFF, r0 := 0x7F, rs := 1, row := 0, col := 0, arg := 0xFFFFFFFF }
  | .lcdStrAt => { op := 0xFF, r0 := 0x7F, rs := 1, row := 0, col := 0, arg := 0 }
  | .lcdCharAt => { op := 0xFF, r0 := 0x7F, rs := 1, row := 0, col := 0, arg := 0xFFFFFF00 }

theorem Opcode.mask_eq (o : Opcode) : o.mask = o.maskFields.toWord := by cases o <;> decide

/-- A row selects a word exactly when the word's masked fields are the row's OP and zeros. -/
theorem selects_iff (o : Opcode) (w : Word) : w &&& o.mask = o.pattern ↔
    (fieldsOf w).op = o.code ∧ (fieldsOf w).r0 = 0 ∧ (fieldsOf w).rs &&& o.maskFields.rs = 0 ∧
      (fieldsOf w).row &&& o.maskFields.row = 0 ∧ (fieldsOf w).col &&& o.maskFields.col = 0 ∧
      (fieldsOf w).arg &&& o.maskFields.arg = 0 := by
  have hm := o.mask_eq
  have hp : o.pattern = o.bare.toWord := by cases o <;> decide
  have hop : o.maskFields.op = BitVec.allOnes 8 := by cases o <;> decide
  have hr0 : o.maskFields.r0 = BitVec.allOnes 7 := by cases o <;> decide
  have hw : w &&& o.mask = (fieldsOf w).toWord &&& o.maskFields.toWord := by rw [← hm, toWord_fieldsOf]
  rw [hw, hp, toWord_and_eq_iff, hop, hr0, BitVec.and_allOnes, BitVec.and_allOnes]
  rfl

end Sys2Proof
end

