-- ==== Sys2Proof/Laws/State.lean ====
section
/-! SUPPORT. One lemma per field of State per named update, each true by rfl, so that no proof unfolds a record update. -/

namespace Sys2Proof.Machine

section
variable (s : State) (e : Event)
@[simp] theorem State.emit_scl : (s.emit e).scl = s.scl := rfl
@[simp] theorem State.emit_sda : (s.emit e).sda = s.sda := rfl
@[simp] theorem State.emit_mode : (s.emit e).mode = s.mode := rfl
@[simp] theorem State.emit_pend : (s.emit e).pend = s.pend := rfl
@[simp] theorem State.emit_fault : (s.emit e).fault = s.fault := rfl
@[simp] theorem State.emit_trace : (s.emit e).trace = s.trace ++ [e] := rfl
@[simp] theorem State.emit_mem : (s.emit e).mem = s.mem := rfl
@[simp] theorem State.emit_clobbered : (s.emit e).clobbered = s.clobbered := rfl
@[simp] theorem State.emit_draws : (s.emit e).draws = s.draws := rfl
@[simp] theorem State.emit_agenda : (s.emit e).agenda = s.agenda := rfl
@[simp] theorem State.emit_params : (s.emit e).params = s.params := rfl
end

section
variable (s : State) (v : Bool)
@[simp] theorem State.writeScl_scl : (s.writeScl v).scl = levelOf v := rfl
@[simp] theorem State.writeScl_sda : (s.writeScl v).sda = s.sda := rfl
@[simp] theorem State.writeScl_mode : (s.writeScl v).mode = s.mode := rfl
@[simp] theorem State.writeScl_pend : (s.writeScl v).pend = s.pend := rfl
@[simp] theorem State.writeScl_fault : (s.writeScl v).fault = s.fault := rfl
@[simp] theorem State.writeScl_trace : (s.writeScl v).trace = s.trace ++ [.line .scl v] := rfl
@[simp] theorem State.writeScl_mem : (s.writeScl v).mem = s.mem := rfl
@[simp] theorem State.writeScl_clobbered : (s.writeScl v).clobbered = s.clobbered := rfl
@[simp] theorem State.writeScl_draws : (s.writeScl v).draws = s.draws := rfl
@[simp] theorem State.writeScl_agenda : (s.writeScl v).agenda = s.agenda := rfl
@[simp] theorem State.writeScl_params : (s.writeScl v).params = s.params := rfl
end

section
variable (s : State) (v : Bool)
@[simp] theorem State.writeSda_scl : (s.writeSda v).scl = s.scl := rfl
@[simp] theorem State.writeSda_sda : (s.writeSda v).sda = levelOf v := rfl
@[simp] theorem State.writeSda_mode : (s.writeSda v).mode = s.mode := rfl
@[simp] theorem State.writeSda_pend : (s.writeSda v).pend = s.pend := rfl
@[simp] theorem State.writeSda_fault : (s.writeSda v).fault = s.fault := rfl
@[simp] theorem State.writeSda_trace : (s.writeSda v).trace = s.trace ++ [.line .sda v] := rfl
@[simp] theorem State.writeSda_mem : (s.writeSda v).mem = s.mem := rfl
@[simp] theorem State.writeSda_clobbered : (s.writeSda v).clobbered = s.clobbered := rfl
@[simp] theorem State.writeSda_draws : (s.writeSda v).draws = s.draws := rfl
@[simp] theorem State.writeSda_agenda : (s.writeSda v).agenda = s.agenda := rfl
@[simp] theorem State.writeSda_params : (s.writeSda v).params = s.params := rfl
end

section
variable (s : State) (d : Duration)
@[simp] theorem State.holdFor_scl : (s.holdFor d).scl = s.scl := rfl
@[simp] theorem State.holdFor_sda : (s.holdFor d).sda = s.sda := rfl
@[simp] theorem State.holdFor_mode : (s.holdFor d).mode = s.mode := rfl
@[simp] theorem State.holdFor_pend : (s.holdFor d).pend = s.pend := rfl
@[simp] theorem State.holdFor_fault : (s.holdFor d).fault = s.fault := rfl
@[simp] theorem State.holdFor_trace : (s.holdFor d).trace = s.trace ++ [.hold d] := rfl
@[simp] theorem State.holdFor_mem : (s.holdFor d).mem = s.mem := rfl
@[simp] theorem State.holdFor_clobbered : (s.holdFor d).clobbered = s.clobbered := rfl
@[simp] theorem State.holdFor_draws : (s.holdFor d).draws = s.draws := rfl
@[simp] theorem State.holdFor_agenda : (s.holdFor d).agenda = s.agenda := rfl
@[simp] theorem State.holdFor_params : (s.holdFor d).params = s.params := rfl
end

section
variable (s : State) (w : Word) (ops : List MicroOp)
@[simp] theorem State.accept_scl : (s.accept w ops).scl = s.scl := rfl
@[simp] theorem State.accept_sda : (s.accept w ops).sda = s.sda := rfl
@[simp] theorem State.accept_mode : (s.accept w ops).mode = .busy := rfl
@[simp] theorem State.accept_pend : (s.accept w ops).pend = ops := rfl
@[simp] theorem State.accept_fault : (s.accept w ops).fault = s.fault := rfl
@[simp] theorem State.accept_trace : (s.accept w ops).trace = s.trace ++ [.cmd w] := rfl
@[simp] theorem State.accept_mem : (s.accept w ops).mem = s.mem := rfl
@[simp] theorem State.accept_clobbered : (s.accept w ops).clobbered = [] := rfl
@[simp] theorem State.accept_draws : (s.accept w ops).draws = s.draws := rfl
@[simp] theorem State.accept_agenda : (s.accept w ops).agenda = s.agenda := rfl
@[simp] theorem State.accept_params : (s.accept w ops).params = s.params := rfl
end

section
variable (s : State) (r : FaultReason) (w : Word)
@[simp] theorem State.raiseFault_scl : (s.raiseFault r w).scl = s.scl := rfl
@[simp] theorem State.raiseFault_sda : (s.raiseFault r w).sda = s.sda := rfl
@[simp] theorem State.raiseFault_mode : (s.raiseFault r w).mode = s.mode := rfl
@[simp] theorem State.raiseFault_pend : (s.raiseFault r w).pend = s.pend := rfl
@[simp] theorem State.raiseFault_fault : (s.raiseFault r w).fault = some { reason := r, info := w } := rfl
@[simp] theorem State.raiseFault_trace : (s.raiseFault r w).trace = s.trace := rfl
@[simp] theorem State.raiseFault_mem : (s.raiseFault r w).mem = s.mem := rfl
@[simp] theorem State.raiseFault_clobbered : (s.raiseFault r w).clobbered = s.clobbered := rfl
@[simp] theorem State.raiseFault_draws : (s.raiseFault r w).draws = s.draws := rfl
@[simp] theorem State.raiseFault_agenda : (s.raiseFault r w).agenda = s.agenda := rfl
@[simp] theorem State.raiseFault_params : (s.raiseFault r w).params = s.params := rfl
end

section
variable (s : State)
@[simp] theorem State.finish_scl : s.finish.scl = s.scl := rfl
@[simp] theorem State.finish_sda : s.finish.sda = s.sda := rfl
@[simp] theorem State.finish_mode : s.finish.mode = .idle := rfl
@[simp] theorem State.finish_pend : s.finish.pend = s.pend := rfl
@[simp] theorem State.finish_fault : s.finish.fault = s.fault := rfl
@[simp] theorem State.finish_trace : s.finish.trace = s.trace ++ [.done] := rfl
@[simp] theorem State.finish_mem : s.finish.mem = s.mem := rfl
@[simp] theorem State.finish_clobbered : s.finish.clobbered = s.clobbered := rfl
@[simp] theorem State.finish_draws : s.finish.draws = s.draws := rfl
@[simp] theorem State.finish_agenda : s.finish.agenda = s.agenda := rfl
@[simp] theorem State.finish_params : s.finish.params = s.params := rfl
end

section
variable (s : State)
@[simp] theorem State.blockReset_scl : s.blockReset.scl = s.params.sclReset := rfl
@[simp] theorem State.blockReset_sda : s.blockReset.sda = s.params.sdaReset := rfl
@[simp] theorem State.blockReset_mode : s.blockReset.mode = .idle := rfl
@[simp] theorem State.blockReset_pend : s.blockReset.pend = [] := rfl
@[simp] theorem State.blockReset_fault : s.blockReset.fault = none := rfl
@[simp] theorem State.blockReset_trace : s.blockReset.trace = [] := rfl
@[simp] theorem State.blockReset_mem : s.blockReset.mem = s.mem := rfl
@[simp] theorem State.blockReset_clobbered : s.blockReset.clobbered = [] := rfl
@[simp] theorem State.blockReset_draws : s.blockReset.draws = s.draws := rfl
@[simp] theorem State.blockReset_agenda : s.blockReset.agenda = s.agenda := rfl
@[simp] theorem State.blockReset_params : s.blockReset.params = s.params := rfl
end

section
variable (s : State) (w : Word)
@[simp] theorem placeWord_scl : (placeWord s w).scl = s.scl := rfl
@[simp] theorem placeWord_sda : (placeWord s w).sda = s.sda := rfl
@[simp] theorem placeWord_mode : (placeWord s w).mode = s.mode := rfl
@[simp] theorem placeWord_pend : (placeWord s w).pend = s.pend := rfl
@[simp] theorem placeWord_fault : (placeWord s w).fault = s.fault := rfl
@[simp] theorem placeWord_trace : (placeWord s w).trace = s.trace := rfl
@[simp] theorem placeWord_mem : (placeWord s w).mem = s.mem := rfl
@[simp] theorem placeWord_clobbered : (placeWord s w).clobbered = s.clobbered := rfl
@[simp] theorem placeWord_draws : (placeWord s w).draws = s.draws := rfl
@[simp] theorem placeWord_agenda : (placeWord s w).agenda = .issue w :: s.agenda := rfl
@[simp] theorem placeWord_params : (placeWord s w).params = s.params := rfl
end

section
variable (p : Params)
@[simp] theorem State.resetOf_scl : (State.resetOf p).scl = p.sclReset := rfl
@[simp] theorem State.resetOf_sda : (State.resetOf p).sda = p.sdaReset := rfl
@[simp] theorem State.resetOf_mode : (State.resetOf p).mode = .idle := rfl
@[simp] theorem State.resetOf_pend : (State.resetOf p).pend = [] := rfl
@[simp] theorem State.resetOf_fault : (State.resetOf p).fault = none := rfl
@[simp] theorem State.resetOf_trace : (State.resetOf p).trace = [] := rfl
@[simp] theorem State.resetOf_mem : (State.resetOf p).mem = [] := rfl
@[simp] theorem State.resetOf_clobbered : (State.resetOf p).clobbered = [] := rfl
@[simp] theorem State.resetOf_draws : (State.resetOf p).draws = 0 := rfl
@[simp] theorem State.resetOf_agenda : (State.resetOf p).agenda = [] := rfl
@[simp] theorem State.resetOf_params : (State.resetOf p).params = p := rfl
end

end Sys2Proof.Machine
end

