-- ==== Sys2Proof/Laws/Memory.lean ====
section
/-! SUPPORT. The laws of the string memory: a write keeps the canonical form, a read after a write to the same address gives the
byte written, a write leaves every other address alone; what a memory read can answer. -/

namespace Sys2Proof.Machine

theorem Memory.wf_cons (c d : Host.Cell) (m : Memory) :
    Memory.wf (c :: d :: m) = true ↔ c.1 < d.1 ∧ Memory.wf (d :: m) = true := by
  simp [Memory.wf]

theorem Memory.wf_tail {c : Host.Cell} {m : Memory} (h : Memory.wf (c :: m) = true) : Memory.wf m = true := by
  cases m with
  | nil => rfl
  | cons d m => exact ((Memory.wf_cons c d m).1 h).2

/-- A lower bound of the first address carries over to the memory after a write. -/
theorem Memory.wf_cons_write {c : Host.Cell} {m : Memory} {a : Nat} {v : Byte} (hc : c.1 < a)
    (h : Memory.wf (c :: m) = true) (hm : Memory.wf (m.write a v) = true) :
    Memory.wf (c :: m.write a v) = true := by
  cases m with
  | nil => simp [Memory.write, Memory.wf, hc]
  | cons d m =>
    have hd := ((Memory.wf_cons c d m).1 h).1
    simp only [Memory.write] at hm ⊢
    split <;> rename_i h1
    · simp only [h1, if_true] at hm
      exact (Memory.wf_cons _ _ _).2 ⟨hc, hm⟩
    · split <;> rename_i h2
      · subst h2
        simp only [lt_irrefl, if_false, if_true] at hm
        exact (Memory.wf_cons _ _ _).2 ⟨hc, hm⟩
      · simp only [h1, h2, if_false] at hm
        exact (Memory.wf_cons _ _ _).2 ⟨hd, hm⟩

theorem Memory.write_wf (m : Memory) (a : Nat) (v : Byte) (h : m.wf = true) : (m.write a v).wf = true := by
  induction m with
  | nil => rfl
  | cons c m ih =>
    simp only [Memory.write]
    split <;> rename_i h1
    · exact (Memory.wf_cons _ _ _).2 ⟨h1, h⟩
    · split <;> rename_i h2
      · subst h2
        cases m with
        | nil => rfl
        | cons d m => exact (Memory.wf_cons _ _ _).2 ((Memory.wf_cons c d m).1 h)
      · exact Memory.wf_cons_write (by omega) h (ih (Memory.wf_tail h))

@[simp] theorem Memory.read_write_same (m : Memory) (a : Nat) (v : Byte) : (m.write a v).read a = some v := by
  induction m with
  | nil => simp [Memory.write, Memory.read]
  | cons c m ih =>
    simp only [Memory.write]
    split <;> rename_i h1
    · simp [Memory.read]
    · split <;> rename_i h2
      · simp [Memory.read]
      · simp [Memory.read, ih, Ne.symm h2]

theorem Memory.read_write_other (m : Memory) (a b : Nat) (v : Byte) (hab : b ≠ a) :
    (m.write a v).read b = m.read b := by
  induction m with
  | nil => simp [Memory.write, Memory.read, Ne.symm hab]
  | cons c m ih =>
    simp only [Memory.write]
    split <;> rename_i h1
    · simp [Memory.read, Ne.symm hab]
    · split <;> rename_i h2
      · subst h2
        simp [Memory.read, Ne.symm hab]
      · simp [Memory.read, ih]

/-- A read after a write, at any address. -/
theorem Memory.read_write (m : Memory) (a b : Nat) (v : Byte) :
    (m.write a v).read b = if b = a then some v else m.read b := by
  by_cases h : b = a
  · simp [h]
  · simp [h, Memory.read_write_other m a b v h]

/-- A write to a readable address leaves the set of readable addresses as it was (20_memory R51). -/
theorem Memory.read_write_eq_none {m : Memory} {a : Nat} (v : Byte) (h : m.read a ≠ none) (b : Nat) :
    (m.write a v).read b = none ↔ m.read b = none := by
  rw [Memory.read_write]
  by_cases hb : b = a <;> simp [hb, h]

theorem Memory.foldl_write_wf (cells : List Host.Cell) (m : Memory) (h : m.wf = true) :
    (cells.foldl (fun m c => Memory.write m c.1 c.2) m).wf = true := by
  induction cells generalizing m with
  | nil => exact h
  | cons c cells ih => exact ih _ (Memory.write_wf m c.1 c.2 h)

/-- A launch's memory has the canonical form, whatever the order of its cells. -/
theorem Memory.ofCells_wf (cells : List Host.Cell) : (Memory.ofCells cells).wf = true :=
  Memory.foldl_write_wf cells [] rfl

theorem Memory.ofCells_snoc (cells : List Host.Cell) (c : Host.Cell) :
    Memory.ofCells (cells ++ [c]) = (Memory.ofCells cells).write c.1 c.2 := by
  simp [Memory.ofCells]

/-- A launch's memory reads as its last cell of the address, and is not readable where it has none. -/
theorem Memory.read_ofCells (cells : List Host.Cell) (a : Nat) :
    (Memory.ofCells cells).read a = (cells.reverse.find? (fun c => c.1 == a)).map (fun c => c.2) := by
  induction cells using List.reverseRecOn with
  | nil => rfl
  | append_singleton cells c ih =>
    rw [Memory.ofCells_snoc, Memory.read_write, ih]
    by_cases h : a = c.1
    · simp [h]
    · simp [h, Ne.symm h]

/-- What `MemRead` can answer: the byte of an existing readable address, or a draw when the host has overwritten it. -/
theorem State.memRead_cases (s : State) (a : Nat) :
    (s.memRead a = none ∧ (addrExists s.params a = false ∨ s.mem.read a = none)) ∨
    (∃ c, addrExists s.params a = true ∧ s.mem.read a = some c ∧ a ∉ s.clobbered ∧ s.memRead a = some (c, s)) ∨
    (∃ c, addrExists s.params a = true ∧ s.mem.read a = some c ∧ a ∈ s.clobbered ∧
      s.memRead a = some (Config.freeByte s.draws, { s with draws := s.draws + 1 })) := by
  unfold State.memRead
  cases h : addrExists s.params a <;> cases hm : s.mem.read a <;> simp
  rename_i c
  by_cases hc : a ∈ s.clobbered <;> simp [hc]

/-- A read changes nothing but the count of draws. -/
theorem State.memRead_frame {s t : State} {a : Nat} {c : Byte} (h : s.memRead a = some (c, t)) :
    t = { s with draws := t.draws } := by
  rcases State.memRead_cases s a with ⟨h1, -⟩ | ⟨d, -, -, -, h1⟩ | ⟨d, -, -, -, h1⟩ <;> rw [h1] at h
  · cases h
  · cases h; rfl
  · cases h; rfl

/-- A byte the host left alone is read as memory holds it. -/
theorem State.memRead_plain {s : State} {a : Nat} {c : Byte} (h1 : addrExists s.params a = true)
    (h2 : s.mem.read a = some c) (h3 : a ∉ s.clobbered) : s.memRead a = some (c, s) := by
  simp [State.memRead, h1, h2, h3]

end Sys2Proof.Machine
end

