-- ==== Sys2Proof/Laws/Step.lean ====
section
/-! SUPPORT. What each shared operation can do, said once: the issue step, the sequencer's turn, a step of the machine. -/

namespace Sys2Proof.Machine

/-- The three outcomes of an issue step up to decoding (10_state R34). -/
theorem issueGuard_cases (w : Word) (s : State) (f : State → State) :
    (s.fault ≠ none ∧ issueGuard w s f = s) ∨
    (s.fault = none ∧ s.mode = .busy ∧ issueGuard w s f = s.raiseFault .cmdWhileBusy w) ∨
    (s.fault = none ∧ s.mode = .idle ∧ issueGuard w s f = f s) := by
  unfold issueGuard
  cases hf : s.fault with
  | some m => simp
  | none => cases hm : s.mode <;> simp

/-- A legal command word never stops the machine: it has no effect, faults the block, or is accepted. -/
theorem issueLegal_cases (w : Word) (ops : List MicroOp) (s : State) :
    (s.fault ≠ none ∧ issueLegal w ops s = .next s) ∨
    (s.fault = none ∧ s.mode = .busy ∧ issueLegal w ops s = .next (s.raiseFault .cmdWhileBusy w)) ∨
    (s.fault = none ∧ s.mode = .idle ∧ issueLegal w ops s = .next (s.accept w ops)) := by
  unfold issueLegal
  rcases issueGuard_cases w s (fun s => s.accept w ops) with ⟨h, e⟩ | ⟨h, h', e⟩ | ⟨h, h', e⟩ <;> simp [h, e]
  all_goals simp [h']

/-- An illegal word never stops the machine: it has no effect or faults the block. -/
theorem issueIllegal_cases (w : Word) (s : State) :
    (s.fault ≠ none ∧ issueIllegal w s = .next s) ∨
    (s.fault = none ∧ s.mode = .busy ∧ issueIllegal w s = .next (s.raiseFault .cmdWhileBusy w)) ∨
    (s.fault = none ∧ s.mode = .idle ∧ issueIllegal w s = .next (s.raiseFault .illegalCmd w)) := by
  unfold issueIllegal
  rcases issueGuard_cases w s (fun s => s.raiseFault .illegalCmd w) with ⟨h, e⟩ | ⟨h, h', e⟩ | ⟨h, h', e⟩ <;> simp [h, e]
  all_goals simp [h']

/-- What a host write can do: there is no such byte; it is not readable and stays so; or it is written and perhaps marked. -/
theorem hostWrite_cases (a : Addr) (v : Byte) (s : State) :
    (addrExists s.params a.toNat = false ∧ hostWrite a v s = .fault (.writeOutside a.toNat)) ∨
    (addrExists s.params a.toNat = true ∧ s.mem.read a.toNat = none ∧ hostWrite a v s = .next s) ∨
    (addrExists s.params a.toNat = true ∧ s.mem.read a.toNat ≠ none ∧ ∃ l, (l = s.clobbered ∨ l = a.toNat :: s.clobbered) ∧
      hostWrite a v s = .next { s with mem := s.mem.write a.toNat v, clobbered := l }) := by
  unfold hostWrite
  cases h : addrExists s.params a.toNat with
  | false => simp
  | true =>
    cases hr : s.mem.read a.toNat with
    | none => simp
    | some c =>
    refine .inr (.inr ⟨rfl, by simp, _, ?_, rfl⟩)
    cases mayRead s.pend a.toNat <;> simp [markClobbered]
    by_cases hc : a.toNat ∈ s.clobbered <;> simp [hc]

/-- What a launch can do: give the string memory of a run that has not begun, or nothing. -/
theorem launchMemory_cases (cells : List Host.Cell) (s : State) :
    (s.trace = [] ∧ s.mode = .idle ∧ s.fault = none ∧ launchMemory cells s = .next { s with mem := Memory.ofCells cells }) ∨
    (¬ (s.trace = [] ∧ s.mode = .idle ∧ s.fault = none) ∧ launchMemory cells s = .fault .lateLaunch) := by
  unfold launchMemory
  by_cases h : s.trace = [] ∧ s.mode = .idle ∧ s.fault = none
  · simp [h]
  · simp [h]

/-- What an SREAD can do (42_lcd_commands R159): be stuck, end the loop after a read, go on after a read, or end it unread. -/
theorem performSread_cases (p : Addr) (i : Fin 17) (s : State) :
    (s.memRead (charAddr p i) = none ∧ performSread p i s = .fault (.stuckRead (charAddr p i))) ∨
    (∃ c t, s.memRead (charAddr p i) = some (c, t) ∧ (c = 0 ∨ i.val = 16) ∧
      performSread p i s = .next (t.emit (.read (charAddr p i) c))) ∨
    (∃ c t j, s.memRead (charAddr p i) = some (c, t) ∧ c ≠ 0 ∧ i.val < 16 ∧ j.val = i.val + 1 ∧
      performSread p i s =
        .next { t.emit (.read (charAddr p i) c) with pend := chr c ++ [.sread p j] ++ t.pend }) ∨
    (i.val = 16 ∧ s.params.strPeek16 = false ∧ performSread p i s = .next s) := by
  unfold performSread
  by_cases h : i.val < 16
  · simp only [h, dite_true]
    cases hm : s.memRead (charAddr p i) with
    | none => simp
    | some ct =>
      obtain ⟨c, t⟩ := ct
      by_cases hc : c = 0
      · refine .inr (.inl ⟨c, t, rfl, .inl hc, ?_⟩)
        simp [sreadContinue, hc]
      · refine .inr (.inr (.inl ⟨c, t, ⟨i.val + 1, by omega⟩, rfl, hc, trivial, rfl, ?_⟩))
        simp only [sreadContinue, if_neg hc]
        rfl
  · have h16 : i.val = 16 := by omega
    simp only [h, dite_false]
    cases hp : s.params.strPeek16 with
    | false => simp [h16]
    | true =>
      cases hm : s.memRead (charAddr p i) with
      | none => simp
      | some ct => exact .inr (.inl ⟨ct.1, ct.2, rfl, .inr h16, by simp⟩)

/-- What the sequencer's turn can do (10_state R35, 60_exceptions R203, 70 R230). -/
theorem sequencerStep_cases (s : State) :
    (∃ m, s.fault = some m ∧ sequencerStep s = .fault (.halted m)) ∨
    (s.fault = none ∧ s.mode = .idle ∧ sequencerStep s = .next s) ∨
    (s.fault = none ∧ s.mode = .busy ∧ s.pend = [] ∧ sequencerStep s = .next s.finish) ∨
    (∃ op rest, s.fault = none ∧ s.mode = .busy ∧ s.pend = op :: rest ∧
      sequencerStep s = perform op { s with pend := rest }) := by
  unfold sequencerStep
  cases hf : s.fault with
  | some m => simp
  | none =>
    cases hm : s.mode with
    | idle => simp
    | busy => cases hp : s.pend <;> simp

/-- What one step of the machine can do: the sequencer's turn, in this state or with one turn or a poll taken off the agenda; or
one of the environment's moves. -/
theorem step_cases (s : State) :
    (s.agenda = [] ∧ step s = sequencerStep s) ∨
    (∃ rest, s.agenda = .sequence :: rest ∧ step s = sequencerStep { s with agenda := rest }) ∨
    (∃ rest, s.agenda = .await :: rest ∧ s.mode = .busy ∧ step s = sequencerStep s) ∨
    (∃ rest, s.agenda = .await :: rest ∧ s.mode = .idle ∧ step s = .next { s with agenda := rest }) ∨
    (∃ w rest, s.agenda = .issue w :: rest ∧ step s = issueWord w { s with agenda := rest }) ∨
    (∃ a v rest, s.agenda = .write a v :: rest ∧ step s = hostWrite a v { s with agenda := rest }) ∨
    (∃ rest, s.agenda = .reset :: rest ∧ step s = .next (State.blockReset { s with agenda := rest })) ∨
    (∃ cells rest, s.agenda = .launch cells :: rest ∧ step s = launchMemory cells { s with agenda := rest }) := by
  unfold step
  cases ha : s.agenda with
  | nil => simp
  | cons m rest =>
    cases m with
    | issue w => simp [takeMove]
    | sequence => simp [takeMove]
    | write a v => simp [takeMove]
    | reset => simp [takeMove]
    | launch cells => simp [takeMove]
    | await =>
      cases hm : s.mode with
      | idle => simp [takeMove, pollStatus, status]
      | busy =>
        refine .inr (.inr (.inl ⟨rest, rfl, rfl, ?_⟩))
        simp only [takeMove, pollStatus, status, if_true]
        congr 1
        cases s; simp_all

end Sys2Proof.Machine
end

