-- ==== Sys2Proof/Laws/Run.lean ====
section
/-! SUPPORT. Running the sequencer alone: with nothing on the agenda a list of line writes and holds is performed in order, one
step each, and leaves exactly its events and the line levels they give. -/

namespace Sys2Proof.Machine

/-- One more step of a machine's run, in the host interface's words. -/
theorem host_run_succ (M : Host.Core) (n : Nat) (s : M.State) :
    M.run (n + 1) s = (match M.step s with
      | .next t => M.run n t
      | .fault r => .fault r
      | .refused r => .refused r) := rfl

/-- The machine's own run and the host interface's are the same. -/
theorem core_run_eq (n : Nat) (s : State) : Sys2Proof.core.run n s = runSteps n s := by
  induction n generalizing s with
  | zero => rfl
  | succ n ih =>
    refine (host_run_succ Sys2Proof.core n s).trans ?_
    have h : Sys2Proof.core.step s = step s := rfl
    rw [runSteps, h]
    cases step s with
    | next t => exact ih t
    | fault r => rfl
    | refused r => rfl

theorem runSteps_zero (s : State) : runSteps 0 s = .next s := rfl

theorem runSteps_succ {n : Nat} {s t : State} (h : step s = .next t) : runSteps (n + 1) s = runSteps n t := by
  rw [runSteps, h]

/-- Runs join: first m steps, then n more. -/
theorem runSteps_add {m n : Nat} {s t : State} (h : runSteps m s = .next t) :
    runSteps (m + n) s = runSteps n t := by
  induction m generalizing s with
  | zero => cases h; rw [Nat.zero_add]
  | succ m ih =>
    rw [Nat.add_right_comm]
    rw [runSteps] at h ⊢
    cases hs : step s with
    | next u => rw [hs] at h; exact ih h
    | fault r => rw [hs] at h; cases h
    | refused r => rw [hs] at h; cases h

theorem step_nil_agenda {s : State} (h : s.agenda = []) : step s = sequencerStep s := by
  simp [step, h]

@[simp] theorem opsEvents_nil : opsEvents [] = [] := rfl

@[simp] theorem opsEvents_cons (op : MicroOp) (ops : List MicroOp) :
    opsEvents (op :: ops) = opEvents op ++ opsEvents ops := rfl

@[simp] theorem opsEvents_append (xs ys : List MicroOp) : opsEvents (xs ++ ys) = opsEvents xs ++ opsEvents ys := by
  simp [opsEvents]

@[simp] theorem linesAfterAll_nil (ls : Lines) : linesAfterAll ls [] = ls := rfl

@[simp] theorem linesAfterAll_append (ls : Lines) (xs ys : List Event) :
    linesAfterAll ls (xs ++ ys) = linesAfterAll (linesAfterAll ls xs) ys := by
  simp [linesAfterAll]

/-- The state after the events of micro-operations, with the rest still pending. -/
def performed (s : State) (evs : List Event) (rest : List MicroOp) : State :=
  { s with
    scl := (linesAfterAll s.lines evs).scl
    sda := (linesAfterAll s.lines evs).sda
    pend := rest
    trace := s.trace ++ evs }

/-- One line write or hold: its event, and the lines the event leaves. -/
theorem perform_plain {op : MicroOp} (h : isSread op = false) (s : State) (rest : List MicroOp) :
    perform op { s with pend := rest } = .next (performed s (opEvents op) rest) := by
  cases op with
  | sread p i => cases h
  | wscl v => rfl
  | wsda v => rfl
  | hold d => rfl

theorem performed_performed (s : State) (xs ys : List Event) (r r' : List MicroOp) :
    performed (performed s xs r) ys r' = performed s (xs ++ ys) r' := by
  simp [performed, State.lines]

/-- Line writes and holds run in order, one step each, whatever stands behind them in PEND. -/
theorem run_plain (ops : List MicroOp) (hops : ∀ op ∈ ops, isSread op = false) (rest : List MicroOp) (s : State)
    (ha : s.agenda = []) (hf : s.fault = none) (hm : s.mode = .busy) (hp : s.pend = ops ++ rest) :
    runSteps ops.length s = .next (performed s (opsEvents ops) rest) := by
  induction ops generalizing s with
  | nil =>
    rw [List.nil_append] at hp
    simp [runSteps_zero, performed, State.lines, ← hp]
  | cons op ops ih =>
    have hstep : step s = .next (performed s (opEvents op) (ops ++ rest)) := by
      rw [step_nil_agenda ha]
      rcases sequencerStep_cases s with ⟨m, h, -⟩ | ⟨-, h, -⟩ | ⟨-, -, h, -⟩ | ⟨op', r, -, -, h, e⟩
      · rw [hf] at h; cases h
      · rw [hm] at h; cases h
      · rw [hp] at h; cases h
      · rw [hp] at h
        cases h
        exact e.trans (perform_plain (hops op (by simp)) s (ops ++ rest))
    rw [List.length_cons, runSteps_succ hstep,
      ih (fun o ho => hops o (by simp [ho])) (performed s (opEvents op) (ops ++ rest)) ha hf hm rfl,
      performed_performed, opsEvents_cons]

/-- Left alone, an IDLE block without a fault stays as it is (70 R230). -/
theorem runSteps_idle {s : State} (ha : s.agenda = []) (hf : s.fault = none) (hm : s.mode = .idle) (n : Nat) :
    runSteps n s = .next s := by
  induction n with
  | zero => rfl
  | succ n ih =>
    have hstep : step s = .next s := by
      rw [step_nil_agenda ha]
      simp [sequencerStep, hf, hm]
    rw [runSteps_succ hstep, ih]

/-- With nothing pending the command completes. -/
theorem run_finish {s : State} (ha : s.agenda = []) (hf : s.fault = none) (hm : s.mode = .busy) (hp : s.pend = []) :
    runSteps 1 s = .next s.finish := by
  have hstep : step s = .next s.finish := by
    rw [step_nil_agenda ha]
    rcases sequencerStep_cases s with ⟨m, h, -⟩ | ⟨-, h, -⟩ | ⟨-, -, -, e⟩ | ⟨op, r, -, -, h, -⟩
    · rw [hf] at h; cases h
    · rw [hm] at h; cases h
    · exact e
    · rw [hp] at h; cases h
  rw [runSteps_succ hstep, runSteps_zero]

end Sys2Proof.Machine
end

