-- ==== Sys2Proof/Laws/Lists.lean ====
section
/-! SUPPORT. The pieces of every command are line writes and holds, but for the SREAD of a string; `exec` is the issue step of the
command's word with its expansion. -/

namespace Sys2Proof.Machine

/-- No SREAD in a list. -/
def plain (ops : List MicroOp) : Prop := ∀ op ∈ ops, isSread op = false

theorem plain_nil : plain [] := by simp [plain]

theorem plain_append {xs ys : List MicroOp} (hx : plain xs) (hy : plain ys) : plain (xs ++ ys) := by
  intro op h
  rcases List.mem_append.1 h with h | h
  · exact hx op h
  · exact hy op h

theorem plain_flatMap {α : Type} {f : α → List MicroOp} (l : List α) (h : ∀ x, plain (f x)) : plain (l.flatMap f) := by
  intro op ho
  obtain ⟨x, -, hx⟩ := List.mem_flatMap.1 ho
  exact h x op hx

theorem plain_hold (d : Duration) : plain [.hold d] := by simp [plain, isSread]

theorem bitOps_plain (n : Nat) (v : Bool) : plain (bitOps n v) := by simp [plain, bitOps, isSread]

theorem startOps_plain : plain startOps := by simp [plain, startOps, isSread]

theorem ackp_plain : plain ackp := by simp [plain, ackp, isSread]

theorem stopOps_plain : plain stopOps := by simp [plain, stopOps, isSread]

theorem frame_plain (b : Byte) : plain (frame b) :=
  plain_append (plain_append (plain_append (plain_append (plain_append (plain_append startOps_plain
    (plain_flatMap _ (bitOps_plain 1))) ackp_plain) (plain_flatMap _ (bitOps_plain 50))) ackp_plain)
    (plain_append ackp_plain ackp_plain)) stopOps_plain

theorem nib_plain (x : Byte) (rs : BitVec 1) : plain (nib x rs) :=
  plain_append (plain_append (plain_append (plain_append (plain_append (frame_plain _) (frame_plain _)) (frame_plain _))
    (plain_hold _)) (frame_plain _)) (plain_hold _)

theorem chr_plain (c : Byte) : plain (chr c) :=
  plain_append (plain_append (plain_hold _) (nib_plain _ _)) (nib_plain _ _)

theorem cmd_plain (c : Byte) : plain (cmd c) :=
  plain_append (plain_append (plain_append (plain_hold _) (nib_plain _ _)) (plain_hold _)) (nib_plain _ _)

theorem initOps_plain (p : Params) : plain (initOps p) :=
  plain_append (plain_hold _) (plain_flatMap _ cmd_plain)

theorem gotoOps_plain (col row : Byte) : plain (gotoOps col row) := by
  unfold gotoOps
  split
  · exact plain_append (cmd_plain _) (plain_hold _)
  · exact plain_nil

/-- Every arm of the dispatcher is the issue step of its word with its expansion (10_state R34). -/
theorem exec_eq_issueLegal (i : Instr) (s : State) : exec i s = issueLegal (encode i) (expand s.params i) s := by
  cases i <;> rfl

end Sys2Proof.Machine
end

