-- ==== Sys2Proof/Laws/Moves.lean ====
section
/-! SUPPORT. What a step that answers a next state has done, said once per agent: the host's word, the sequencer's turn, any move of
the agenda. The invariants are read off from these. -/

namespace Sys2Proof.Machine

/-- Where the next move is the sequencer's turn, the step is its step with that turn taken off the agenda. -/
theorem step_sequencerMoves {s : State} (h : sequencerMoves s) :
    step s = sequencerStep { s with agenda := afterTurn s.agenda } := by
  rcases step_cases s with ⟨a, e⟩ | ⟨r, a, e⟩ | ⟨r, a, _, e⟩ | ⟨r, a, m, e⟩ | ⟨w, r, a, e⟩ | ⟨x, v, r, a, e⟩ | ⟨r, a, e⟩ |
    ⟨cells, r, a, e⟩
  · rw [e]; congr 1; simp only [a, afterTurn]; cases s; simp_all
  · rw [e, a, afterTurn]
  · rw [e]; congr 1; simp only [a, afterTurn]; cases s; simp_all
  all_goals (exfalso; unfold sequencerMoves at h; simp_all)

/-- The sequencer's turn with a micro-operation pending performs it. -/
theorem step_perform {s : State} {op : MicroOp} {rest : List MicroOp} (h : sequencerMoves s) (hf : s.fault = none)
    (hm : s.mode = .busy) (hp : s.pend = op :: rest) :
    step s = perform op { s with pend := rest, agenda := afterTurn s.agenda } := by
  rw [step_sequencerMoves h]
  simp [sequencerStep, hf, hm, hp]

/-- Everything a performed SREAD changes besides PEND's head: at most one `Read` event, and the operations of its character. -/
theorem performSread_next {p : Addr} {i : Fin 17} {s t : State} (h : performSread p i s = .next t) :
    t.scl = s.scl ∧ t.sda = s.sda ∧ t.mode = s.mode ∧ t.fault = s.fault ∧ t.params = s.params ∧ t.mem = s.mem ∧
      t.agenda = s.agenda ∧ t.clobbered = s.clobbered ∧
      ((t.trace = s.trace ∧ t.pend = s.pend) ∨
        ∃ a c, t.trace = s.trace ++ [.read a c] ∧ (t.pend = s.pend ∨ ∃ j, t.pend = chr c ++ [.sread p j] ++ s.pend)) := by
  rcases performSread_cases p i s with ⟨_, e⟩ | ⟨c, u, hu, _, e⟩ | ⟨c, u, j, hu, _, _, _, e⟩ | ⟨_, _, e⟩ <;> rw [e] at h <;> cases h
  · rw [State.memRead_frame hu]; simp
  · rw [State.memRead_frame hu]; simp
  · simp

/-- Everything a sequencer's turn can do (10_state R35). -/
theorem sequencerStep_next {s t : State} (h : sequencerStep s = .next t) :
    s.fault = none ∧ t.fault = none ∧ t.params = s.params ∧ t.mem = s.mem ∧ t.agenda = s.agenda ∧ t.clobbered = s.clobbered ∧
      ((s.mode = .idle ∧ t = s) ∨ (s.mode = .busy ∧ s.pend = [] ∧ t = s.finish) ∨
        (s.mode = .busy ∧ t.mode = .busy ∧ ∃ op rest, s.pend = op :: rest ∧
          ((∃ v, op = .wscl v ∧ t = { s with pend := rest }.writeScl v) ∨
            (∃ v, op = .wsda v ∧ t = { s with pend := rest }.writeSda v) ∨
            (∃ d, op = .hold d ∧ t = { s with pend := rest }.holdFor d) ∨
            (∃ p i, op = .sread p i ∧ t.scl = s.scl ∧ t.sda = s.sda ∧
              ((t.trace = s.trace ∧ t.pend = rest) ∨ ∃ a c, t.trace = s.trace ++ [.read a c] ∧
                (t.pend = rest ∨ ∃ j, t.pend = chr c ++ [.sread p j] ++ rest)))))) := by
  rcases sequencerStep_cases s with ⟨m, _, e⟩ | ⟨hf, hm, e⟩ | ⟨hf, hm, hp, e⟩ | ⟨op, rest, hf, hm, hp, e⟩ <;> rw [e] at h
  · cases h
  · cases h; simp [hf, hm]
  · cases h; simp [hf, hm, hp]
  · cases op with
    | wscl v => cases h; exact ⟨hf, hf, rfl, rfl, rfl, rfl, .inr (.inr ⟨hm, hm, _, rest, hp, .inl ⟨v, rfl, rfl⟩⟩)⟩
    | wsda v => cases h; exact ⟨hf, hf, rfl, rfl, rfl, rfl, .inr (.inr ⟨hm, hm, _, rest, hp, .inr (.inl ⟨v, rfl, rfl⟩)⟩)⟩
    | hold v => cases h; exact ⟨hf, hf, rfl, rfl, rfl, rfl, .inr (.inr ⟨hm, hm, _, rest, hp, .inr (.inr (.inl ⟨v, rfl, rfl⟩))⟩)⟩
    | sread p i =>
      obtain ⟨h1, h2, h3, h4, h5, h6, h7, h8, h9⟩ := performSread_next h
      exact ⟨hf, h4.trans hf, h5, h6, h7, h8, .inr (.inr ⟨hm, h3.trans hm, _, rest, hp, .inr (.inr (.inr ⟨p, i, rfl, h1, h2, h9⟩))⟩)⟩

/-- Everything a step can be: the sequencer's turn, a poll that reads 0, a word, a host write (of a byte that is not readable, or of
one that is), a reset, a launch (log entry 1). -/
theorem step_next {s t : State} (h : step s = .next t) :
    (sequencerMoves s ∧ sequencerStep { s with agenda := afterTurn s.agenda } = .next t) ∨
    (∃ rest, s.agenda = .await :: rest ∧ s.mode = .idle ∧ t = { s with agenda := rest }) ∨
    (∃ w rest, s.agenda = .issue w :: rest ∧ issueWord w { s with agenda := rest } = .next t) ∨
    (∃ a v rest, s.agenda = .write a v :: rest ∧ s.mem.read a.toNat = none ∧ t = { s with agenda := rest }) ∨
    (∃ a v rest l, s.agenda = .write a v :: rest ∧ s.mem.read a.toNat ≠ none ∧ (l = s.clobbered ∨ l = a.toNat :: s.clobbered) ∧
      t = { s with agenda := rest, mem := s.mem.write a.toNat v, clobbered := l }) ∨
    (∃ rest, s.agenda = .reset :: rest ∧ t = State.blockReset { s with agenda := rest }) ∨
    (∃ cells rest, s.agenda = .launch cells :: rest ∧ s.trace = [] ∧ s.mode = .idle ∧ s.fault = none ∧
      t = { s with agenda := rest, mem := Memory.ofCells cells }) := by
  by_cases hs : sequencerMoves s
  · exact .inl ⟨hs, (step_sequencerMoves hs).symm.trans h⟩
  rcases step_cases s with ⟨a, e⟩ | ⟨r, a, e⟩ | ⟨r, a, m, e⟩ | ⟨r, a, m, e⟩ | ⟨w, r, a, e⟩ | ⟨x, v, r, a, e⟩ | ⟨r, a, e⟩ |
    ⟨cells, r, a, e⟩ <;> rw [e] at h
  · exact absurd (.inl a) hs
  · exact absurd (.inr (.inl (by simp [a]))) hs
  · exact absurd (.inr (.inr ⟨by simp [a], m⟩)) hs
  · cases h; exact .inr (.inl ⟨r, a, m, rfl⟩)
  · exact .inr (.inr (.inl ⟨w, r, a, h⟩))
  · rcases hostWrite_cases x v { s with agenda := r } with ⟨_, e⟩ | ⟨_, hr, e⟩ | ⟨_, hr, l, hl, e⟩ <;> rw [e] at h <;> cases h
    · exact .inr (.inr (.inr (.inl ⟨x, v, r, a, hr, rfl⟩)))
    · exact .inr (.inr (.inr (.inr (.inl ⟨x, v, r, l, a, hr, hl, rfl⟩))))
  · cases h; exact .inr (.inr (.inr (.inr (.inr (.inl ⟨r, a, rfl⟩)))))
  · rcases launchMemory_cases cells { s with agenda := r } with ⟨h1, h2, h3, e⟩ | ⟨_, e⟩ <;> rw [e] at h <;> cases h
    exact .inr (.inr (.inr (.inr (.inr (.inr ⟨cells, r, a, h1, h2, h3, rfl⟩)))))

/-- Everything the host's word can do (10_state R34); a legal one is accepted as the word of its command. -/
theorem issueWord_next {s t : State} {w : Word} (h : issueWord w s = .next t) :
    (s.fault ≠ none ∧ t = s) ∨
    (s.fault = none ∧ s.mode = .busy ∧ ∃ v, t = s.raiseFault .cmdWhileBusy v ∧ (v = w ∨ ∃ i, decode w = .ok i ∧ v = encode i)) ∨
    (s.fault = none ∧ s.mode = .idle ∧ (∃ r, decode w = .error r) ∧ t = s.raiseFault .illegalCmd w) ∨
    (s.fault = none ∧ s.mode = .idle ∧ ∃ i, decode w = .ok i ∧ t = s.accept (encode i) (expand s.params i)) := by
  unfold issueWord at h
  split at h
  · rename_i i hi
    rw [exec_eq_issueLegal] at h
    rcases issueLegal_cases (encode i) (expand s.params i) s with ⟨hf, e⟩ | ⟨hf, hm, e⟩ | ⟨hf, hm, e⟩ <;> rw [e] at h <;> cases h
    · exact .inl ⟨hf, rfl⟩
    · exact .inr (.inl ⟨hf, hm, _, rfl, .inr ⟨i, hi, rfl⟩⟩)
    · exact .inr (.inr (.inr ⟨hf, hm, i, hi, rfl⟩))
  · rename_i r hr
    rcases issueIllegal_cases w s with ⟨hf, e⟩ | ⟨hf, hm, e⟩ | ⟨hf, hm, e⟩ <;> rw [e] at h <;> cases h
    · exact .inl ⟨hf, rfl⟩
    · exact .inr (.inl ⟨hf, hm, w, rfl, .inl rfl⟩)
    · exact .inr (.inr (.inl ⟨hf, hm, ⟨r, hr⟩, rfl⟩))

end Sys2Proof.Machine
end

