-- ==== Sys2Proof/Laws/PerInstr.lean ====
section
/-! SUPPORT. Statements made per instruction. OwnRow: the word of every command is selected by the command's own row of the opcode
map (30_encoding R72). -/

namespace Sys2Proof.Laws.OwnRow

/-- The command's word, masked with its row's mask, is its row's match value. -/
def Statement (i : Instr) : Prop := encode i &&& i.opcode.mask = i.opcode.pattern

/-- A row selects the word with given fields when they are masked to its OP and zeros. -/
theorem of_fields {i : Instr}
    (h : i.fields.op = i.opcode.code ∧ i.fields.r0 = 0 ∧ i.fields.rs &&& i.opcode.maskFields.rs = 0 ∧
      i.fields.row &&& i.opcode.maskFields.row = 0 ∧ i.fields.col &&& i.opcode.maskFields.col = 0 ∧
      i.fields.arg &&& i.opcode.maskFields.arg = 0) : Statement i := by
  unfold Statement encode
  rw [selects_iff, fieldsOf_toWord]
  exact h

/-- A byte widened to ARG has no bit above bit 7. -/
theorem byte_and_high (c : Byte) : c.setWidth 32 &&& 0xFFFFFF00 = 0 := by
  apply BitVec.eq_of_toNat_eq
  rw [BitVec.toNat_and, BitVec.toNat_setWidth, Nat.mod_eq_of_lt (by omega)]
  apply Nat.eq_of_testBit_eq
  intro k
  rw [Nat.testBit_and]
  by_cases hk : k < 8
  · have : ∀ j < 8, Nat.testBit (0xFFFFFF00#32).toNat j = false := by decide
    rw [show (0xFFFFFF00 : BitVec 32) = 0xFFFFFF00#32 from rfl, this k hk, Bool.and_false]
    exact (Nat.zero_testBit k).symm
  · have : c.toNat < 2 ^ k := lt_of_lt_of_le c.isLt (Nat.pow_le_pow_right (by omega) (by omega))
    simp [Nat.testBit_lt_two_pow this]

theorem i2cOut (arg : BitVec 32) : Statement (.i2cOut arg) :=
  of_fields ⟨rfl, rfl, BitVec.zero_and, BitVec.zero_and, BitVec.zero_and, BitVec.and_zero⟩

theorem lcdNibble (x : Byte) (rs : BitVec 1) : Statement (.lcdNibble x rs) :=
  of_fields ⟨rfl, rfl, BitVec.and_zero, BitVec.zero_and, BitVec.zero_and, byte_and_high x⟩

theorem lcdChar (c : Byte) : Statement (.lcdChar c) :=
  of_fields ⟨rfl, rfl, BitVec.zero_and, BitVec.zero_and, BitVec.zero_and, byte_and_high c⟩

theorem lcdCmd (c : Byte) : Statement (.lcdCmd c) :=
  of_fields ⟨rfl, rfl, BitVec.zero_and, BitVec.zero_and, BitVec.zero_and, byte_and_high c⟩

theorem lcdInit : Statement .lcdInit :=
  of_fields ⟨rfl, rfl, BitVec.zero_and, BitVec.zero_and, BitVec.zero_and, BitVec.zero_and⟩

theorem lcdStr (p : Addr) : Statement (.lcdStr p) :=
  of_fields ⟨rfl, rfl, BitVec.zero_and, BitVec.zero_and, BitVec.zero_and, BitVec.and_zero⟩

theorem lcdGoto (col row : Byte) : Statement (.lcdGoto col row) :=
  of_fields ⟨rfl, rfl, BitVec.zero_and, BitVec.and_zero, BitVec.and_zero, BitVec.zero_and⟩

theorem lcdStrAt (row1 col1 : Byte) (p : Addr) : Statement (.lcdStrAt row1 col1 p) :=
  of_fields ⟨rfl, rfl, BitVec.zero_and, BitVec.and_zero, BitVec.and_zero, BitVec.and_zero⟩

theorem lcdCharAt (row1 col1 c : Byte) : Statement (.lcdCharAt row1 col1 c) :=
  of_fields ⟨rfl, rfl, BitVec.zero_and, BitVec.and_zero, BitVec.and_zero, byte_and_high c⟩

end Sys2Proof.Laws.OwnRow
end

