-- ==== Sys2Proof/Laws/Receiver.lean ====
section
/-! SUPPORT. The observations compose: the wire events of events in two parts; one bit of a frame under a LOW clock is one sample
of its value. -/

namespace Sys2Proof.Machine

theorem wires_append (ls : Lines) (xs ys : List Event) :
    wires ls (xs ++ ys) = wires ls xs ++ wires (linesAfterAll ls xs) ys := by
  induction xs generalizing ls with
  | nil => rfl
  | cons e xs ih =>
    rw [List.cons_append, wires, wires, ih, List.append_assoc]
    rfl

theorem toggles_append (ls : Lines) (xs ys : List Event) :
    toggles ls (xs ++ ys) = toggles ls xs ++ toggles (linesAfterAll ls xs) ys := by
  induction xs generalizing ls with
  | nil => rfl
  | cons e xs ih =>
    rw [List.cons_append, toggles, toggles, ih, List.append_assoc]
    rfl

/-- One bit, from a LOW clock: one sample, of the bit's value, whatever the data line was; the clock is LOW again. -/
theorem bitOps_wires (n : Nat) (v : Bool) (d : Level) :
    wires { scl := .low, sda := d } (opsEvents (bitOps n v)) = [.sample (levelOf v)] ∧
    linesAfterAll { scl := .low, sda := d } (opsEvents (bitOps n v)) = { scl := .low, sda := levelOf v } := by
  cases v <;> cases d <;> exact ⟨rfl, rfl⟩

/-- An acknowledge-shaped pulse, from a LOW clock: one sample of 0. -/
theorem ackp_wires (d : Level) :
    wires { scl := .low, sda := d } (opsEvents ackp) = [.sample .low] ∧
    linesAfterAll { scl := .low, sda := d } (opsEvents ackp) = { scl := .low, sda := .low } := by
  cases d <;> exact ⟨rfl, rfl⟩

/-- The latches of port values in two parts. -/
theorem latches_append (p : Byte) (xs ys : List Byte) :
    latches p (xs ++ ys) = latches p xs ++ latches ((p :: xs).getLast (by simp)) ys := by
  induction xs generalizing p with
  | nil => rfl
  | cons x xs ih =>
    rw [List.cons_append, latches, latches, ih, List.append_assoc]
    rfl

/-- Every observer of a sum of holds splits with its events. -/
theorem holdSum_append {α : Type} [AddCommMonoid α] (τ : Timing α) (xs ys : List Event) :
    holdSum τ (xs ++ ys) = holdSum τ xs + holdSum τ ys := by
  simp [holdSum]

end Sys2Proof.Machine
end

