-- ==== Sys2Proof/Tests/Slice0.lean ====
section
/-! SUPPORT. Small tests: words and vectors written out from the spec (95_test_vectors and the examples of the family sections), single
steps, and for every obligation with hypotheses a state and operands that meet them. -/

namespace Sys2Proof.Tests
open Sys2Proof.Machine

/-! ### Well-formedness: one ill-formed term for each check -/

theorem test_wf_good : ({ op := 0x09, r0 := 0, rs := 0, row := 255, col := 255, arg := 0xFF } : Fields).wellFormed = true := by decide

theorem test_wf_op_low : ({ op := 0x00, r0 := 0, rs := 0, row := 0, col := 0, arg := 0 } : Fields).wellFormed = false := by decide

theorem test_wf_op_high : ({ op := 0x0A, r0 := 0, rs := 0, row := 0, col := 0, arg := 0 } : Fields).wellFormed = false := by decide

theorem test_wf_r0 : ({ op := 0x01, r0 := 1, rs := 0, row := 0, col := 0, arg := 0 } : Fields).wellFormed = false := by decide

theorem test_wf_rs : ({ op := 0x01, r0 := 0, rs := 1, row := 0, col := 0, arg := 0 } : Fields).wellFormed = false := by decide

theorem test_wf_coord : ({ op := 0x03, r0 := 0, rs := 0, row := 1, col := 0, arg := 0 } : Fields).wellFormed = false := by decide

theorem test_wf_arg_byte : ({ op := 0x03, r0 := 0, rs := 0, row := 0, col := 0, arg := 0x141 } : Fields).wellFormed = false := by decide

theorem test_wf_arg_zero : ({ op := 0x07, r0 := 0, rs := 0, row := 0, col := 0, arg := 1 } : Fields).wellFormed = false := by decide

/-! ### Decoding: every constructor from a word of the spec (95 L2.0 and the examples of each command's rule), then illegal words -/

theorem test_decode_i2cOut : decode 0x01000000000000A5 = .ok (.i2cOut 0xA5) := by decide

theorem test_decode_i2cOut_high : decode 0x01000000FFFFFF34 = .ok (.i2cOut 0xFFFFFF34) := by decide

theorem test_decode_lcdNibble : decode 0x0201000000000030 = .ok (.lcdNibble 0x30 1) := by decide

theorem test_decode_lcdChar : decode 0x0300000000000041 = .ok (.lcdChar 0x41) := by decide

theorem test_decode_lcdCmd : decode 0x04000000000000CF = .ok (.lcdCmd 0xCF) := by decide

theorem test_decode_lcdInit : decode 0x0500000000000000 = .ok .lcdInit := by decide

theorem test_decode_lcdStr : decode 0x06000000FFFFFFFF = .ok (.lcdStr 0xFFFFFFFF) := by decide

theorem test_decode_lcdGoto : decode 0x0700010F00000000 = .ok (.lcdGoto 15 1) := by decide

theorem test_decode_lcdStrAt : decode 0x0800010200000100 = .ok (.lcdStrAt 1 2 0x100) := by decide

theorem test_decode_lcdCharAt : decode 0x0900000500000058 = .ok (.lcdCharAt 0 5 0x58) := by decide

theorem test_encode_lcdStrAt : encode (.lcdStrAt 255 255 0x12345678) = 0x0800FFFF12345678 := by decide

theorem test_illegal_op_zero : decode 0x0000000000000000 = .error .opUnused := by decide

theorem test_illegal_op_high : decode 0xFF00000000000000 = .error .opUnused := by decide

theorem test_illegal_r0_low : decode 0x0102000000000000 = .error .r0NotZero := by decide

theorem test_illegal_r0_high : decode 0x0680000000000000 = .error .r0NotZero := by decide

theorem test_illegal_rs : decode 0x0901FFFF000000FF = .error .rsNotZero := by decide

theorem test_illegal_coord : decode 0x0400010000000000 = .error .coordNotZero := by decide

theorem test_illegal_arg : decode 0x0201000000000130 = .error .argNotZero := by decide

theorem test_table_word : decodeTableWord 64 0x0300000000000041 = some (.lcdChar 0x41) := by decide

/-! ### The assembler (30_encoding R78, R79, and the words of the rules' examples) -/

/-- Parameters with the default command bytes (00_scope R10; none is given here) and lines at different reset levels. -/
def testParams : Params where
  sclReset := .undriven
  sdaReset := .low
  strPeek16 := true
  addrWidthLess1 := 15

theorem test_asm_nibble : assemble testParams "lcd.nib 0x30, rs=0".toList = some 0x0200000000000030 := by decide

theorem test_asm_goto : assemble testParams "lcd.goto col=15, row=1".toList = some 0x0700010F00000000 := by decide

theorem test_asm_char : assemble testParams "lcd.chr 'A'".toList = some 0x0300000000000041 := by decide

theorem test_asm_char_at : assemble testParams "lcd.chr_at row=0, col=5, 'X'".toList = some 0x0900000500000058 := by decide

theorem test_asm_too_wide : assemble testParams "lcd.chr 256".toList = none := by decide

theorem test_asm_home : assemble testParams "lcd.home".toList = some 0x0400000000000002 := by decide

/-! ### What the commands send (95 L2.1 to L2.6), as an ideal receiver sees it -/

/-- The SDA values written by events, in order. -/
def sdaWrites (es : List Event) : List Bool := es.filterMap (fun e => match e with | .line .sda v => some v | _ => none)

/-- 95 L2.1: the 24 SDA values of frame(0xA5): start, address, acknowledge, payload, three more pulses, stop. -/
theorem test_frame_sda : sdaWrites (opsEvents (frame 0xA5)) =
    [true, false] ++ [false, true, false, false, false, false, false, false] ++ [false]
      ++ [true, false, true, false, false, true, false, true] ++ [false] ++ [false, false] ++ [false, true] := by decide +kernel

/-- 95 L2.1: toggles of frame(0xA5) from LOW and LOW are 43 on SCL and 13 on SDA. -/
theorem test_frame_toggles :
    (toggles { scl := .low, sda := .low } (opsEvents (frame 0xA5))).countP (fun t => t.1 == .scl) = 43 ∧
    (toggles { scl := .low, sda := .low } (opsEvents (frame 0xA5))).countP (fun t => t.1 == .sda) = 13 := by decide +kernel

/-- 95 L2.1: from LOW and LOW the wire begins sample(0), STOP, START. -/
theorem test_frame_first_wires :
    (wires { scl := .low, sda := .low } (opsEvents (frame 0xA5))).take 3 = [.sample .low, .stop, .start] := by decide +kernel

/-- 95 L2.2: the largest packet. -/
theorem test_nibble_packets : payloads bothHigh (opsEvents (nib 0xF0 1)) = [0x01, 0x3D, 0x3F, 0x3D] := by decide +kernel

/-- 95 L2.3: the packets of 'A'. -/
theorem test_char_packets :
    payloads bothHigh (opsEvents (chr 0x41)) = [0x01, 0x11, 0x13, 0x11, 0x01, 0x05, 0x07, 0x05] := by decide +kernel

/-- 95 L2.3: the spurious latch of 'A' when the port had E = 1. -/
theorem test_char_spurious :
    latches 0x02 (payloads bothHigh (opsEvents (chr 0x41))) =
      [{ rs := 1, nibble := 0 }, { rs := 1, nibble := 4 }, { rs := 1, nibble := 1 }] := by decide +kernel

/-- 95 L2.4: the packets of 0xCF. -/
theorem test_cmd_packets :
    payloads bothHigh (opsEvents (cmd 0xCF)) = [0x00, 0x30, 0x32, 0x30, 0x00, 0x3C, 0x3E, 0x3C] := by decide +kernel

/-- 95 L2.5, R156: the order of initialize with the default bytes. -/
theorem test_init_bytes_atDefaults (p : Params) : initBytes p.atDefaults = [0x32, 0x28, 0x0C, 0x01, 0x06] := rfl

theorem test_init_bytes : initBytes testParams = [0x32, 0x28, 0x0C, 0x01, 0x06] := by decide

/-- R158: goto(15, 1) is one command write of 0xCF; goto(16, 0) and goto(0, 2) are none. -/
theorem test_goto_edges : gotoOps 15 1 = cmd 0xCF ++ [.hold (.named .gotoPost)] ∧ gotoOps 16 0 = [] ∧ gotoOps 0 2 = [] := by
  decide +kernel

/-- R162: row1 = 2, col1 = 16 positions at 0xCF; row1 = 3 and col1 = 0 do not position. -/
theorem test_one_based : gotoOneBased 2 16 = gotoOps 15 1 ∧ gotoOneBased 3 1 = [] ∧ gotoOneBased 1 0 = [] := by decide +kernel

/-! ### Single steps -/

/-- The machine after reset with the test parameters, a string "A", 0x00 at 0x100, and given moves to come. -/
def idleState (agenda : List Move) : State :=
  { State.resetOf testParams with mem := [(0x100, 0x41), (0x101, 0x00)], agenda := agenda }

/-- The same machine in the middle of the command `lcd.str 0x100`, with given micro-operations pending. -/
def busyState (pend : List MicroOp) (agenda : List Move) : State :=
  { idleState agenda with mode := .busy, pend := pend, trace := [.cmd 0x0600000000000100] }

/-- The same machine faulted. -/
def faultedState (agenda : List Move) : State :=
  { busyState [] agenda with fault := some { reason := .cmdWhileBusy, info := 0x42 } }

/-- R34: an accepted word. -/
theorem test_issue_accepted : step (idleState [.issue 0x0600000000000100]) =
    .next { busyState [.sread 0x100 0] [] with trace := [.cmd 0x0600000000000100] } := by rfl

/-- R34, R201: an illegal word faults and records the word. -/
theorem test_issue_illegal : step (idleState [.issue 0x0A00000000000000]) =
    .next { idleState [] with fault := some { reason := .illegalCmd, info := 0x0A00000000000000 } } := by rfl

/-- R205: a word both illegal and written while busy reports CMD_WHILE_BUSY. -/
theorem test_issue_busy_illegal : step (busyState [] [.issue 0]) =
    .next { busyState [] [] with fault := some { reason := .cmdWhileBusy, info := 0 } } := by rfl

/-- R203: a faulted block takes no command. -/
theorem test_issue_faulted : step (faultedState [.issue 0x0500000000000000]) = .next (faultedState []) := by rfl

/-- R203: and no step of its own. -/
theorem test_faulted_halts : step (faultedState []) = .fault (.halted { reason := .cmdWhileBusy, info := 0x42 }) := by rfl

/-- R30: a clock write from UNDRIVEN. -/
theorem test_wscl : step (busyState [.wscl false] []) =
    .next { busyState [] [] with scl := .low, trace := [.cmd 0x0600000000000100, .line .scl false] } := by rfl

/-- R159: a character is read, and its write is prepended with the next SREAD. -/
theorem test_sread_char : ∃ t, step (busyState [.sread 0x100 0] []) = .next t ∧
    t.pend = chr 0x41 ++ [.sread 0x100 1] ∧ t.trace = [.cmd 0x0600000000000100, .read 0x100 0x41] :=
  ⟨_, rfl, List.append_nil _, rfl⟩

/-- R159: the terminator ends the loop. -/
theorem test_sread_end : step (busyState [.sread 0x100 1] []) =
    .next { busyState [] [] with trace := [.cmd 0x0600000000000100, .read 0x101 0x00] } := by rfl

/-- R51: a byte that is not readable leaves the sequencer stuck. -/
theorem test_sread_unreadable : step (busyState [.sread 0x102 0] []) = .fault (.stuckRead 0x102) := by rfl

/-- R52: no wrap-around at the top of a 16-bit space. -/
theorem test_sread_top : step (busyState [.sread 0xFFFF 1] []) = .fault (.stuckRead 0x10000) := by rfl

/-- R159: the read after the sixteenth character is discarded whatever it is. -/
theorem test_sread_peek : step (busyState [.sread 0xF0 16] []) =
    .next { busyState [] [] with trace := [.cmd 0x0600000000000100, .read 0x100 0x41] } := by rfl

/-- R60: a host write to a byte of the string in progress marks it; the next read of it draws. -/
theorem test_host_write : step (busyState [.sread 0x100 0] [.write 0x101 0x42]) =
    .next { busyState [.sread 0x100 0] [] with mem := [(0x100, 0x41), (0x101, 0x42)], clobbered := [0x101] } := by rfl

/-- R51, R202: a host write does not make a byte readable, so a stuck SREAD stays stuck. -/
theorem test_host_write_unreadable : step (busyState [.sread 0x102 0] [.write 0x102 0x42]) =
    .next (busyState [.sread 0x102 0] []) := by rfl

/-- R51: the launch declares the string memory, in any order of its cells, a later cell before an earlier one; not after a command. -/
theorem test_launch : step { State.resetOf testParams with agenda := [.launch [(5, 1), (3, 2), (5, 7)]] } =
    .next { State.resetOf testParams with mem := [(3, 2), (5, 7)] } := by rfl

theorem test_launch_late : step (busyState [.sread 0x102 0] [.launch [(0x102, 0)]]) = .fault .lateLaunch := by rfl

/-- R35, 20_memory R61: the turns by `sequence` and by a polling host. -/
theorem test_turn_sequence : step (busyState [.wsda true] [.sequence, .await]) =
    .next { busyState [] [.await] with sda := .high, trace := [.cmd 0x0600000000000100, .line .sda true] } := by rfl

theorem test_turn_await : step (busyState [.wsda true] [.await]) =
    .next { busyState [] [.await] with sda := .high, trace := [.cmd 0x0600000000000100, .line .sda true] } := by rfl

theorem test_draw : ∃ t, step { busyState [.sread 0x100 1] [] with clobbered := [0x101] } = .next t ∧ t.draws = 1 ∧
    t.trace = [.cmd 0x0600000000000100, .read 0x101 (Config.freeByte 0)] :=
  ⟨_, rfl, by unfold sreadContinue; split <;> rfl, by unfold sreadContinue; split <;> rfl⟩

/-- R39: reset in the middle of a command. -/
theorem test_reset : step (busyState [.wscl true] [.reset]) = .next (idleState []) := by rfl

/-- R25: STATUS. -/
theorem test_status : status (idleState []) = 0 ∧ status (busyState [] []) = 1 := by decide

/-- The next step runs the placed word. -/
theorem test_withFetchWord : step ((idleState []).withFetchWord 64 0x0400000000000001) =
    exec (.lcdCmd 0x01) (idleState []) := by rfl

/-! ### Witnesses: states and operands that meet the hypotheses of each obligation that has any -/

theorem witness_DecodeFollowsUniqueRow :
    (0x0700010F00000000 : Word) &&& Opcode.lcdGoto.mask = Opcode.lcdGoto.pattern ∧
    ∀ o ∈ Opcode.all, (0x0A00000000000000 : Word) &&& o.mask ≠ o.pattern := by decide

theorem witness_DecodeFollowsUniqueRow_all (o : Opcode) : (0x0A00000000000000 : Word) &&& o.mask ≠ o.pattern := by
  cases o <;> decide

theorem witness_EncodeOfDecode : decode 0x01000000FFFFFFFF = .ok (.i2cOut 0xFFFFFFFF) := by decide

theorem witness_I2cOutIgnoresHighBits : (0x01000000FFFFFFFF : Word).extractLsb' 32 32 = 0x01000000 := by decide

/-- The three kinds of state an issue step meets, the word legal or illegal. -/
theorem witness_HostIssueStep :
    (faultedState [.issue 0]).agenda = [.issue 0] ∧ (faultedState [.issue 0]).fault ≠ none ∧
    (busyState [] [.issue 0]).agenda = [.issue 0] ∧ (busyState [] [.issue 0]).fault = none ∧ (busyState [] [.issue 0]).mode = .busy ∧
    (idleState [.issue 0]).fault = none ∧ (idleState [.issue 0]).mode = .idle ∧ decode 0 = .error .opUnused ∧
    decode 0x0900FFFF000000FF = .ok (.lcdCharAt 255 255 0xFF) := by decide

theorem witness_StepRunsDecoded :
    (idleState [.issue 0x0500000000000000, .await]).agenda = [.issue 0x0500000000000000, .await] ∧
    decode 0x0500000000000000 = .ok .lcdInit ∧ decodeTableWord 64 0x0500000000000000 = some .lcdInit := by decide

/-- `ExecFrame`: one command accepted, one turned away busy, one without effect. -/
theorem witness_ExecFrame : (∃ t, exec .lcdInit (idleState []) = .next t) ∧ (∃ t, exec .lcdInit (busyState [] []) = .next t) ∧
    (∃ t, exec .lcdInit (faultedState []) = .next t) ∧ ¬ ready (busyState [] []) ∧ (idleState []).mode = .idle :=
  ⟨⟨_, rfl⟩, ⟨_, rfl⟩, ⟨_, rfl⟩, by simp [ready, busyState], rfl⟩

/-- The sequencer's turn in the middle of a command, with any micro-operations pending. -/
def turn (s : State) (pend : List MicroOp) : Prop := sequencerMoves s ∧ s.fault = none ∧ s.mode = .busy ∧ s.pend = pend

theorem busyState_turn (pend : List MicroOp) : turn (busyState pend []) pend := ⟨.inl rfl, rfl, rfl, rfl⟩

/-- The other ways the sequencer comes to its turn. -/
theorem busyState_turns (pend : List MicroOp) : turn (busyState pend [.sequence]) pend ∧ turn (busyState pend [.await]) pend :=
  ⟨⟨.inr (.inl rfl), rfl, rfl, rfl⟩, .inr (.inr ⟨rfl, rfl⟩), rfl, rfl, rfl⟩

theorem witness_LineWrites : turn (busyState [.wscl true] []) [.wscl true] ∧ turn (busyState [.wsda false] []) [.wsda false] :=
  ⟨busyState_turn _, busyState_turn _⟩

theorem witness_HoldOnlyEmits : turn (busyState [.hold (.named .powerUp)] []) [.hold (.named .powerUp)] := busyState_turn _

/-- `DoneCompletesCommand`, in each of the ways the sequencer comes to its turn. -/
theorem witness_DoneCompletesCommand : sequencerMoves (busyState [] []) ∧ sequencerMoves (busyState [] [.sequence]) ∧
    sequencerMoves (busyState [] [.await]) ∧ (busyState [] [.await]).fault = none ∧ (busyState [] [.await]).mode = .busy ∧
    (busyState [] [.await]).pend = [] := by
  simp [sequencerMoves, busyState, idleState, State.resetOf]

theorem witness_StatusShowsBusy :
    (∃ t, step (idleState [.issue 0x0500000000000000]) = .next t ∧ (idleState [.issue 0x0500000000000000]).fault = none ∧
      (idleState [.issue 0x0500000000000000]).mode = .idle ∧ t.mode = .busy) ∧ decode 0x0500000000000000 = .ok .lcdInit ∧
    turn (busyState [] []) [] ∧ (∃ t, step (busyState [] []) = .next t ∧ t.mode = .idle) :=
  ⟨⟨_, rfl, rfl, rfl, rfl⟩, by decide, busyState_turn _, ⟨_, rfl, rfl⟩⟩

theorem witness_ModelFaultsRecordTheWord :
    (∃ t, step (idleState [.issue 0]) = .next t ∧ (idleState [.issue 0]).fault = none ∧
      t.fault = some { reason := .illegalCmd, info := 0 }) ∧
    (∃ t, step (busyState [] [.issue 0x0500000000000000]) = .next t ∧ (busyState [] [.issue 0x0500000000000000]).mode = .busy ∧
      t.fault = some { reason := .cmdWhileBusy, info := 0x0500000000000000 }) :=
  ⟨⟨_, rfl, rfl, rfl⟩, ⟨_, rfl, rfl, rfl⟩⟩

theorem witness_FaultIsSticky :
    (∃ t, step (faultedState [.write 0x100 0x43]) = .next t ∧ (faultedState [.write 0x100 0x43]).agenda.head? ≠ some .reset ∧
      (faultedState [.write 0x100 0x43]).fault ≠ none) ∧
    (∃ t, step (faultedState [.reset]) = .next t ∧ (faultedState [.reset]).agenda.head? = some .reset) :=
  ⟨⟨_, rfl, by decide, by decide⟩, ⟨_, rfl, rfl⟩⟩

theorem witness_FaultedBlockStops : (faultedState []).fault = some { reason := .cmdWhileBusy, info := 0x42 } ∧
    sequencerMoves (faultedState []) ∧ (faultedState [.issue 0]).agenda = [.issue 0] ∧
    (∃ t, step (faultedState [.write 0x100 0x43]) = .next t) ∧ (faultedState [.reset]).agenda = [.reset] :=
  ⟨rfl, .inl rfl, rfl, ⟨_, rfl⟩, rfl⟩

theorem witness_OnlyLineWritesChangeLines :
    (∃ t, step (busyState [.wscl false] []) = .next t ∧ t.scl ≠ (busyState [.wscl false] []).scl) ∧
    (∃ t, step (busyState [.wsda true] []) = .next t ∧ t.sda ≠ (busyState [.wsda true] []).sda) ∧
    (busyState [.wsda true] []).agenda.head? ≠ some .reset :=
  ⟨⟨_, rfl, by decide⟩, ⟨_, rfl, by decide⟩, by decide⟩

theorem witness_TraceOnlyGrows : (busyState [] []).agenda.head? ≠ some .reset ∧ ∃ t, step (busyState [] []) = .next t :=
  ⟨by decide, _, rfl⟩

/-- `OnlyTheHostWritesMemory`: a write to a readable byte, one to the last address, not readable, a launch, and another step. -/
theorem witness_OnlyTheHostWritesMemory :
    ((∃ t, step (idleState [.write 0x101 0x20]) = .next t) ∧ (idleState [.write 0x101 0x20]).mem.read 0x101 ≠ none) ∧
    ((∃ t, step (idleState [.write 0xFFFF 0x20]) = .next t) ∧ (idleState [.write 0xFFFF 0x20]).mem.read 0xFFFF = none) ∧
    (∃ t, step (idleState [.launch [(0xFFFF, 0)]]) = .next t) ∧
    (∃ t, step (busyState [.wscl true] []) = .next t) ∧ (∀ a v, (busyState [.wscl true] []).agenda.head? ≠ some (.write a v)) ∧
    ∀ cells, (busyState [.wscl true] []).agenda.head? ≠ some (.launch cells) :=
  ⟨⟨⟨_, rfl⟩, by decide⟩, ⟨⟨_, rfl⟩, by decide⟩, ⟨_, rfl⟩, ⟨_, rfl⟩, by simp [busyState, idleState], by simp [busyState, idleState]⟩

theorem witness_ResetValues : (busyState [] [.reset]).agenda = [.reset] ∧ traceInv (idleState [.issue 0x0500000000000000]) ∧
    (idleState [.issue 0x0500000000000000]).trace = [] ∧
    (idleState [.issue 0x0500000000000000]).agenda.head? ≠ some .reset ∧
    ∃ t, step (idleState [.issue 0x0500000000000000]) = .next t :=
  ⟨rfl, rfl, rfl, by decide, _, rfl⟩

/-- The four StepKeeps statements: the invariants hold in the middle of a command, and the machine steps there. -/
theorem witness_StepKeeps : traceInv (busyState [.wsda true, .wscl true, .sread 0x100 0] []) ∧
    pendInv (busyState [.wsda true, .wscl true, .sread 0x100 0] []) ∧
    settleInv (busyState [.wsda true, .wscl true, .sread 0x100 0] []) ∧
    linesInv (busyState [.wsda true, .wscl true, .sread 0x100 0] []) ∧
    memInv (busyState [.wsda true, .wscl true, .sread 0x100 0] []) ∧
    ∃ t, step (busyState [.wsda true, .wscl true, .sread 0x100 0] []) = .next t :=
  ⟨rfl, by simp [pendInv, busyState], ⟨rfl, rfl⟩, rfl, rfl, _, rfl⟩

/-- `IdleLines`, before the first line write and after. -/
theorem witness_IdleLines : pendInv (idleState []) ∧ settleInv (idleState []) ∧ (idleState []).mode = .idle ∧
    (idleState []).trace.any isLineEvent = false ∧
    settleInv { idleState [] with scl := .high, sda := .high, trace := [.line .scl true] } ∧
    ({ idleState [] with scl := .high, sda := .high, trace := [.line .scl true] } : State).trace.any isLineEvent = true :=
  ⟨fun _ => rfl, ⟨rfl, rfl⟩, rfl, rfl, ⟨rfl, rfl⟩, rfl⟩

/-- `SreadStep`, first clause: index 16 with P_STR_PEEK16 false. -/
theorem witness_SreadStep_unread :
    turn { busyState [.sread 0xF0 16] [] with params := { testParams with strPeek16 := false } } [.sread 0xF0 16] ∧
    (0xF0 : Addr).toNat + (16 : Fin 17).val ∉ (busyState [.sread 0xF0 16] []).clobbered := ⟨busyState_turn _, by decide⟩

/-- Second clause: a terminator at index 15; and index 16 with P_STR_PEEK16 true. -/
theorem witness_SreadStep_ends :
    (turn (busyState [.sread 0xF2 15] []) [.sread 0xF2 15] ∧ (15 : Fin 17).val < 16 ∧
      (0xF2 : Addr).toNat + (15 : Fin 17).val < 2 ^ addrWidth testParams ∧
      (busyState [.sread 0xF2 15] []).mem.read ((0xF2 : Addr).toNat + (15 : Fin 17).val) = some 0) ∧
    (turn (busyState [.sread 0xF0 16] []) [.sread 0xF0 16] ∧ testParams.strPeek16 = true ∧
      (busyState [.sread 0xF0 16] []).mem.read ((0xF0 : Addr).toNat + (16 : Fin 17).val) = some 0x41) :=
  ⟨⟨busyState_turn _, by decide, by decide, by decide⟩, busyState_turn _, by decide, by decide⟩

/-- Third clause: a character at index 15, the last one. -/
theorem witness_SreadStep_goes_on :
    turn (busyState [.sread 0xF1 15] []) [.sread 0xF1 15] ∧ (16 : Fin 17).val = (15 : Fin 17).val + 1 ∧
    (0xF1 : Addr).toNat + (15 : Fin 17).val < 2 ^ addrWidth testParams ∧
    (busyState [.sread 0xF1 15] []).mem.read ((0xF1 : Addr).toNat + (15 : Fin 17).val) = some 0x41 ∧ (0x41 : Byte) ≠ 0 :=
  ⟨busyState_turn _, by decide, by decide, by decide, by decide⟩

/-- Fourth clause: the first address past a 16-bit space; and an address that is not readable. -/
theorem witness_SreadStep_stuck :
    (turn (busyState [.sread 0xFFFF 1] []) [.sread 0xFFFF 1] ∧ 2 ^ addrWidth testParams ≤ (0xFFFF : Addr).toNat + (1 : Fin 17).val) ∧
    turn (busyState [.sread 0x102 0] []) [.sread 0x102 0] ∧
    (busyState [.sread 0x102 0] []).mem.read ((0x102 : Addr).toNat + (0 : Fin 17).val) = none :=
  ⟨⟨busyState_turn _, by decide⟩, busyState_turn _, by decide⟩

/-- Second part, an SREAD that stays stuck: the host writes the very byte, or a word. -/
theorem witness_SreadStep_stays_stuck :
    (∃ t, step (busyState [.sread 0x102 0] [.write 0x102 0x42]) = .next t) ∧
    (∃ t, step (busyState [.sread 0x102 0] [.issue 0]) = .next t) ∧
    notAdmitted (busyState [.sread 0x102 0] [.write 0x102 0x42]) ((0x102 : Addr).toNat + (0 : Fin 17).val) ∧
    (busyState [.sread 0x102 0] [.write 0x102 0x42]).agenda.head? ≠ some .reset :=
  ⟨⟨_, rfl⟩, ⟨_, rfl⟩, .inr (by decide), by decide⟩

/-- `OverwrittenByteIsADraw`: at index 15, and at index 16 with P_STR_PEEK16. -/
theorem witness_OverwrittenByteIsADraw :
    (turn { busyState [.sread 0xF2 15] [] with clobbered := [0x101] } [.sread 0xF2 15] ∧ (15 : Fin 17).val < 16 ∧
      (0xF2 : Addr).toNat + (15 : Fin 17).val ∈ ({ busyState [.sread 0xF2 15] [] with clobbered := [0x101] } : State).clobbered) ∧
    (turn { busyState [.sread 0xF1 16] [] with clobbered := [0x101] } [.sread 0xF1 16] ∧ testParams.strPeek16 = true ∧
      (0xF1 : Addr).toNat + (16 : Fin 17).val ∈ ({ busyState [.sread 0xF1 16] [] with clobbered := [0x101] } : State).clobbered) ∧
    0x101 < 2 ^ addrWidth testParams ∧ (busyState [] []).mem.read 0x101 ≠ none :=
  ⟨⟨busyState_turn _, by decide, by decide⟩, ⟨busyState_turn _, by decide, by decide⟩, by decide, by decide⟩

/-- `HostWriteMarksStringBytes`: a write to 0x101 for the pointers p whose range p to p + 16 has it at either end (0x101, 0xF1) or
just outside (0x102, 0xF0), and outside a string command. -/
theorem witness_HostWriteMarksStringBytes (p : Addr) :
    (busyState [.hold (.named .dataPre), .sread p 3] [.write 0x101 0]).agenda = [.write 0x101 0] ∧
    (busyState [.hold (.named .dataPre), .sread p 3] [.write 0x101 0]).pend = [.hold (.named .dataPre)] ++ [.sread p 3] ∧
    [MicroOp.hold (.named .dataPre)].all (fun op => !isSread op) = true ∧ (0x101 : Addr).toNat < 2 ^ addrWidth testParams ∧
    (busyState [] []).mem.read (0x101 : Addr).toNat ≠ none ∧
    ((0xF1 : Addr).toNat ≤ (0x101 : Addr).toNat ∧ (0x101 : Addr).toNat ≤ (0xF1 : Addr).toNat + 16) ∧
    ((0x101 : Addr).toNat ≤ (0x101 : Addr).toNat ∧ (0x101 : Addr).toNat ≤ (0x101 : Addr).toNat + 16) ∧
    ¬ ((0x102 : Addr).toNat ≤ (0x101 : Addr).toNat) ∧ ¬ ((0x101 : Addr).toNat ≤ (0xF0 : Addr).toNat + 16) ∧
    (busyState [.wscl true] [.write 0x101 0]).pend.all (fun op => !isSread op) = true :=
  ⟨rfl, rfl, by decide, by decide, by decide, by decide, by decide, by decide, by decide, by decide⟩

/-- A write to the last address, not readable, and one to the first address past a 16-bit space. -/
theorem witness_HostWriteMarksStringBytes_unmarked :
    ((0xFFFF : Addr).toNat < 2 ^ addrWidth testParams ∧ (idleState [.write 0xFFFF 0]).mem.read (0xFFFF : Addr).toNat = none) ∧
    2 ^ addrWidth testParams ≤ (0x10000 : Addr).toNat := by decide

/-- The hypotheses of I2cOutSendsOneFrame, LcdNibbleCompletes, LcdCharCompletes, LcdCmdCompletes, LcdInitCompletes,
LcdGotoCompletes and LcdCharAtPositionsThenWrites: an IDLE block with nothing on the agenda. -/
theorem witness_ready : ready (idleState []) ∧ (idleState []).agenda = [] ∧ (idleState []).fault = none ∧
    (idleState []).mode = .idle := ⟨⟨rfl, rfl⟩, rfl, rfl, rfl⟩

/-- `LcdGotoCompletes`, `MinimumDurations`, `EventCounts`: on the display, at its last place; off it, by the column and by the row. -/
theorem witness_onDisplay : ((1 : Byte).toNat < 2 ∧ (15 : Byte).toNat < 16) ∧ ¬ ((0 : Byte).toNat < 2 ∧ (16 : Byte).toNat < 16) ∧
    ¬ ((2 : Byte).toNat < 2 ∧ (0 : Byte).toNat < 16) ∧ onDisplay 15 1 = true ∧ onDisplay 16 0 = false ∧ onDisplay 0 2 = false := by
  decide

/-- `LcdStrWritesTheString`, `LcdStrAtPositionsThenWrites`: no character, one character with its terminator. -/
theorem witness_holdsString : holdsString (idleState []) 0x101 [] 0 ∧ holdsString (idleState []) 0x100 [0x41] 0 := by
  simp [holdsString, holdsChars, holdsByte, idleState, testParams, State.resetOf, addrExists, addrWidth, Memory.read]

/-- Sixteen readable characters from 0x200, and one byte more. -/
def longString : State :=
  { idleState [] with mem := (List.range 17).map (fun k => (0x200 + k, 0x41)) }

/-- The same two statements with sixteen characters, and `admitsString` of `EveryCommandCompletes`. -/
theorem witness_holdsString_full : holdsString longString 0x200 (List.replicate 16 0x41) 0x41 := by
  refine ⟨?_, by decide, fun h => absurd h (by decide), fun _ _ => ⟨by decide, by decide⟩⟩
  simp only [List.replicate, holdsChars]
  repeat' apply And.intro
  all_goals trivial

theorem witness_admitsString : admitsString longString (.lcdStrAt 0 17 0x200) ∧ ready longString ∧ longString.agenda = [] := by
  refine ⟨fun k hk => ⟨0x41, ?_⟩, ⟨rfl, rfl⟩, rfl⟩
  interval_cases k <;> exact ⟨by decide, by decide⟩

/-- `NoRetainedState`: two states with different lines, histories and string memories; and a string command with one memory. -/
theorem witness_NoRetainedState :
    ready (idleState []) ∧ ready { longString with scl := .high, trace := [.cmd 0x0500000000000000, .done] } ∧
    (idleState []).params = longString.params ∧ readsString (.lcdChar 0x41) = false ∧ readsString (.lcdStr 0x100) = true ∧
    (∃ t, exec (.lcdChar 0x41) (idleState []) = .next t ∧ ∃ u, runSteps 1 t = .next u) ∧
    (∃ t, exec (.lcdStr 0x100) (idleState []) = .next t ∧ ∃ u, runSteps 1 t = .next u) ∧
    ∃ t, exec (.lcdChar 0x41) { longString with scl := .high, trace := [.cmd 0x0500000000000000, .done] } = .next t :=
  ⟨⟨rfl, rfl⟩, ⟨rfl, rfl⟩, rfl, rfl, rfl, ⟨_, rfl, _, rfl⟩, ⟨_, rfl, _, rfl⟩, ⟨_, rfl⟩⟩

theorem witness_FrameLineDiscipline : (opsEvents (frame 0xA5))[60]? = some (.line .sda true) := by decide +kernel

theorem witness_NibblePlacement : (0x3F : Byte).extractLsb' 4 4 = (0x30 : Byte).extractLsb' 4 4 := by decide

/-- `OneLatchPerNibble`, `NibbleRoundTrip`, `InitializeSendsFiveBytes`, `StringReachesTheReceiver`: ports with E = 0 (all other
bits 1) and E = 1 (all other bits 0). -/
theorem witness_portE : portE 0xFD = false ∧ portE 0x02 = true := by decide

/-- `OneBasedTranslation`: the ends of the coordinates' ranges. -/
theorem witness_OneBasedTranslation : (255 : Byte) ≠ 0 ∧ gotoOneBased 0 16 = [] ∧ gotoOneBased 2 16 ≠ [] ∧ gotoOneBased 1 1 ≠ [] := by
  decide +kernel

theorem witness_PositioningCommandRange : (1 : Byte).toNat < 2 ∧ (0 : Byte).toNat < 2 ∧ (15 : Byte).toNat < 16 := by decide

/-- `DataAndCommandTagging`: a packet of each kind of write. -/
theorem witness_DataAndCommandTagging : 0x11 ∈ payloads bothHigh (opsEvents (chr 0x41)) ∧
    0x11 ∈ payloads bothHigh (charEvents 0x100 0 [0x41]) ∧ 0x32 ∈ payloads bothHigh (opsEvents (cmd 0xCF)) ∧
    0x0C ∈ payloads bothHigh (opsEvents (initOps testParams)) ∧ 0x32 ∈ payloads bothHigh (opsEvents (gotoOps 15 1)) := by
  decide +kernel

/-- `EventCounts`: the two lengths of string. -/
theorem witness_EventCounts : (List.replicate 15 (0x41 : Byte)).length < 16 ∧ (List.replicate 16 (0x41 : Byte)).length = 16 := by
  decide

/-- Every unit 1 and every open hold 0. -/
noncomputable def unitTiming : Timing ℝ := { unit := fun _ => 1, named := fun _ => 0 }

/-- A time of 50 a step obeys the timing law of unit timings on any TRACE whose holds are of at most 50 units. -/
theorem slow_timingLaw (es : List Event) (h : ∀ e ∈ es, eventTime unitTiming e ≤ 50) :
    timingLaw unitTiming es (fun k => 50 * (k : ℝ)) := by
  intro i j hij _
  have hlen : (eventsBetween es i j).length ≤ j - i - 1 := by simp [eventsBetween]
  have hmem : ∀ x ∈ (eventsBetween es i j).map (eventTime unitTiming), x ≤ 50 := by
    intro x hx
    obtain ⟨e, he, rfl⟩ := List.mem_map.1 hx
    exact h e (List.mem_of_mem_drop (List.mem_of_mem_take he))
  have hsum := List.sum_le_card_nsmul _ _ hmem
  have hcast : ((eventsBetween es i j).length : ℝ) + i ≤ j := by exact_mod_cast (by omega)
  simp only [List.length_map, nsmul_eq_mul] at hsum
  simp only [holdSum]
  linarith

/-- `CommandTakesItsHolds`: a positioning off the display, and a string without a character, run until IDLE. -/
theorem witness_CommandTakesItsHolds :
    (∃ t u, exec (.lcdGoto 16 0) (idleState []) = .next t ∧ runSteps 1 t = .next u ∧ u.mode = .idle ∧
      timingLaw unitTiming u.trace (fun k => 50 * (k : ℝ))) ∧
    (∃ t u, exec (.lcdStr 0x101) (idleState []) = .next t ∧ runSteps 2 t = .next u ∧ u.mode = .idle ∧
      timingLaw unitTiming u.trace (fun k => 50 * (k : ℝ))) ∧
    sendsChars (idleState []) 0 (.lcdStr 0x101) ∧ sendsChars (idleState []) 0 (.lcdGoto 16 0) ∧ timingInRange unitTiming :=
  ⟨⟨_, _, rfl, rfl, rfl, slow_timingLaw [.cmd (encode (.lcdGoto 16 0)), .done] (by simp [eventTime])⟩,
    ⟨_, _, rfl, rfl, rfl, slow_timingLaw [.cmd (encode (.lcdStr 0x101)), .read 0x101 0, .done] (by simp [eventTime])⟩,
    ⟨[], 0, witness_holdsString.1, rfl⟩, trivial, fun _ => one_pos, fun _ => le_refl 0⟩

end Sys2Proof.Tests
end

section
/-! PROOFS. The word of a decoded command is the word decoded (30_encoding R70 to R75): what the host's issue step records in
TRACE is the word the host wrote. -/

namespace Sys2Proof

/-- A byte operand's field is its byte, when the field's upper 24 bits are 0. -/
theorem setWidth_argByte {arg : BitVec 32} (h : arg &&& 0xFFFFFF00 = 0) : (argByte arg).setWidth 32 = arg := by
  apply BitVec.eq_of_getLsbD_eq
  intro k hk
  have hmask : ∀ j < 32, (0xFFFFFF00#32).getLsbD j = decide (8 ≤ j) := by decide
  have hbit : (arg.getLsbD k && decide (8 ≤ k)) = false := by
    rw [← hmask k hk, ← BitVec.getLsbD_and]
    exact (congrArg (·.getLsbD k) h).trans BitVec.getLsbD_zero
  by_cases h8 : k < 8
  · simp [argByte, hk, h8]
  · have hfalse : arg.getLsbD k = false := by simpa [Nat.not_lt.1 h8] using hbit
    simp [argByte, h8, hfalse]

/-- The operands read from the fields of a word that a row selects give those fields back. -/
theorem Opcode.fields_operands {o : Opcode} {w : Word} (h : w &&& o.mask = o.pattern) :
    (o.operands (fieldsOf w)).fields = fieldsOf w := by
  obtain ⟨hop, hr0, hrs, hrow, hcol, harg⟩ := (selects_iff o w).1 h
  generalize fieldsOf w = f at *
  obtain ⟨op, r0, rs, row, col, arg⟩ := f
  have hones8 : ∀ x : BitVec 8, x &&& 0xFF = x := fun x => BitVec.and_allOnes
  have hones1 : ∀ x : BitVec 1, x &&& 1 = x := fun x => BitVec.and_allOnes
  have hones32 : ∀ x : BitVec 32, x &&& 0xFFFFFFFF = x := fun x => BitVec.and_allOnes
  cases o <;>
    simp only [Opcode.maskFields, hones8, hones1, hones32] at hop hr0 hrs hrow hcol harg <;>
    simp_all [Opcode.operands, Instr.fields, Opcode.bare, setWidth_argByte]

/-- A legal word is the word of the command it decodes to (30_encoding R73, R75). -/
theorem encode_of_decode {w : Word} {i : Instr} (h : decode w = .ok i) : encode i = w := by
  unfold decode at h
  split at h
  · rename_i o ho
    cases h
    have hsel : w &&& o.mask = o.pattern := by
      simpa [Opcode.selects] using List.find?_some ho
    rw [encode, Opcode.fields_operands hsel, toWord_fieldsOf]
  · cases h

end Sys2Proof
end

section
/-! PROOFS. What one step can do to the block, said once (10_state R29 to R37, R39): every invariant of the block is read off
from the eight forms of `BlockStep`. -/

namespace Sys2Proof.Machine

/-! ### The host's issue step, case by case (10_state R34, 60_exceptions R205) -/

theorem step_issue {s : State} {w : Word} {rest : List Move} (h : s.agenda = .issue w :: rest) :
    step s = issueWord w { s with agenda := rest } := by
  simp [step, h, takeMove]

theorem issueWord_legal {w : Word} {i : Instr} (hi : decode w = .ok i) (s : State) : issueWord w s = exec i s := by
  simp [issueWord, hi]

theorem issueWord_illegal {w : Word} {r : Illegal} (hr : decode w = .error r) (s : State) :
    issueWord w s = issueIllegal w s := by
  simp [issueWord, hr]

/-- The issue step of a command that a legal word decodes to is the issue step of that word. -/
theorem exec_of_decode {w : Word} {i : Instr} (hi : decode w = .ok i) (s : State) :
    exec i s = issueLegal w (expand s.params i) s := by
  rw [exec_eq_issueLegal, encode_of_decode hi]

theorem issueLegal_ready (w : Word) (ops : List MicroOp) {s : State} (h : ready s) :
    issueLegal w ops s = .next (s.accept w ops) := by
  obtain ⟨hf, hm⟩ := h
  simp [issueLegal, issueGuard, hf, hm]

theorem issueIllegal_ready (w : Word) {s : State} (h : ready s) :
    issueIllegal w s = .next (s.raiseFault .illegalCmd w) := by
  obtain ⟨hf, hm⟩ := h
  simp [issueIllegal, issueGuard, hf, hm]

/-- Any word written to a faulted block leaves it as it is. -/
theorem issueWord_faulted (w : Word) {s : State} (hf : s.fault ≠ none) : issueWord w s = .next s := by
  obtain ⟨m, hm⟩ := Option.ne_none_iff_exists'.1 hf
  cases hd : decode w with
  | ok i => rw [issueWord_legal hd, exec_of_decode hd]; simp [issueLegal, issueGuard, hm]
  | error r => rw [issueWord_illegal hd]; simp [issueIllegal, issueGuard, hm]

/-- Any word written to a busy block is recorded by CMD_WHILE_BUSY. -/
theorem issueWord_busy (w : Word) {s : State} (hf : s.fault = none) (hm : s.mode = .busy) :
    issueWord w s = .next (s.raiseFault .cmdWhileBusy w) := by
  cases hd : decode w with
  | ok i => rw [issueWord_legal hd, exec_of_decode hd]; simp [issueLegal, issueGuard, hf, hm]
  | error r => rw [issueWord_illegal hd]; simp [issueIllegal, issueGuard, hf, hm]

/-- A command issued to a block that accepts one is accepted with its expansion. -/
theorem exec_ready (i : Instr) {s : State} (h : ready s) :
    exec i s = .next (s.accept (encode i) (expand s.params i)) := by
  rw [exec_eq_issueLegal, issueLegal_ready _ _ h]

/-! ### The forms of a step -/

/-- What is not the block's: the string memory, the marks and draws on it, and the moves still to come. -/
structure Environ where
  mem : Memory
  clobbered : List Nat
  draws : Nat
  agenda : List Move

/-- The block of a state in another environment. -/
def State.within (s : State) (e : Environ) : State :=
  { s with mem := e.mem, clobbered := e.clobbered, draws := e.draws, agenda := e.agenda }

section
variable (s : State) (e : Environ)
@[simp] theorem State.within_scl : (s.within e).scl = s.scl := rfl
@[simp] theorem State.within_sda : (s.within e).sda = s.sda := rfl
@[simp] theorem State.within_lines : (s.within e).lines = s.lines := rfl
@[simp] theorem State.within_mode : (s.within e).mode = s.mode := rfl
@[simp] theorem State.within_pend : (s.within e).pend = s.pend := rfl
@[simp] theorem State.within_fault : (s.within e).fault = s.fault := rfl
@[simp] theorem State.within_trace : (s.within e).trace = s.trace := rfl
@[simp] theorem State.within_params : (s.within e).params = s.params := rfl
end

/-- The next states of the block, whatever the environment becomes: it waits; a word is refused with a fault, or accepted; the
sequencer completes the command, performs a line write or hold, ends the string loop, or goes on with it; reset. -/
inductive BlockStep (s : State) : State → Prop
  | waits (e : Environ) : BlockStep s (s.within e)
  | faults (w : Word) (r : FaultReason) (e : Environ) (hw : s.agenda.head? = some (.issue w)) (hf : s.fault = none)
      (hr : (r = .cmdWhileBusy ∧ s.mode = .busy) ∨ (r = .illegalCmd ∧ s.mode = .idle ∧ ∃ x, decode w = .error x)) :
      BlockStep s ((s.raiseFault r w).within e)
  | accepts (w : Word) (i : Instr) (e : Environ) (hw : s.agenda.head? = some (.issue w)) (hi : decode w = .ok i)
      (hs : ready s) : BlockStep s ((s.accept w (expand s.params i)).within e)
  | completes (e : Environ) (ht : sequencerMoves s) (hf : s.fault = none) (hm : s.mode = .busy) (hp : s.pend = []) :
      BlockStep s (s.finish.within e)
  | performs (op : MicroOp) (rest : List MicroOp) (e : Environ) (ht : sequencerMoves s) (hf : s.fault = none)
      (hm : s.mode = .busy) (hp : s.pend = op :: rest) (hop : isSread op = false) :
      BlockStep s ((performed s (opEvents op) rest).within e)
  | endsString (p : Addr) (i : Fin 17) (rest : List MicroOp) (es : List Event) (e : Environ) (hf : s.fault = none)
      (hm : s.mode = .busy) (hp : s.pend = .sread p i :: rest) (hes : es = [] ∨ ∃ a c, es = [.read a c]) :
      BlockStep s (({ s with pend := rest, trace := s.trace ++ es } : State).within e)
  | continuesString (p : Addr) (i j : Fin 17) (rest : List MicroOp) (a : Nat) (c : Byte) (e : Environ) (hf : s.fault = none)
      (hm : s.mode = .busy) (hp : s.pend = .sread p i :: rest) :
      BlockStep s (({ s with pend := chr c ++ [.sread p j] ++ rest, trace := s.trace ++ [.read a c] } : State).within e)
  | resets (e : Environ) (hr : s.agenda.head? = some .reset) : BlockStep s (s.blockReset.within e)

/-- What a performed SREAD does to the block. -/
theorem blockStep_of_performSread {s t : State} {p : Addr} {i : Fin 17} {rest : List MicroOp} {agenda : List Move}
    (hf : s.fault = none) (hm : s.mode = .busy) (hp : s.pend = .sread p i :: rest)
    (h : performSread p i { s with pend := rest, agenda := agenda } = .next t) : BlockStep s t := by
  rcases performSread_cases p i { s with pend := rest, agenda := agenda } with
    ⟨-, e⟩ | ⟨c, u, hu, -, e⟩ | ⟨c, u, j, hu, -, -, -, e⟩ | ⟨-, -, e⟩ <;> rw [e] at h <;> cases h
  · rw [State.memRead_frame hu]
    exact .endsString p i rest _ ⟨_, _, _, _⟩ hf hm hp (.inr ⟨_, _, rfl⟩)
  · rw [State.memRead_frame hu]
    exact .continuesString p i j rest _ c ⟨_, _, _, _⟩ hf hm hp
  · have hend := BlockStep.endsString p i rest [] ⟨s.mem, s.clobbered, s.draws, agenda⟩ hf hm hp (.inl rfl)
    rwa [List.append_nil] at hend

/-- What the sequencer's turn does to the block (10_state R35). -/
theorem blockStep_of_sequencerStep {s t : State} (ht : sequencerMoves s)
    (h : sequencerStep { s with agenda := afterTurn s.agenda } = .next t) : BlockStep s t := by
  rcases sequencerStep_cases { s with agenda := afterTurn s.agenda } with
    ⟨m, -, e⟩ | ⟨-, -, e⟩ | ⟨hf, hm, hp, e⟩ | ⟨op, rest, hf, hm, hp, e⟩ <;> rw [e] at h
  · cases h
  · cases h; exact .waits ⟨_, _, _, _⟩
  · cases h; exact .completes ⟨_, _, _, _⟩ ht hf hm hp
  · cases hop : isSread op with
    | false =>
      rw [perform_plain hop] at h
      cases h
      exact .performs op rest ⟨_, _, _, _⟩ ht hf hm hp hop
    | true =>
      cases op with
      | sread p i => exact blockStep_of_performSread hf hm hp h
      | wscl v => cases hop
      | wsda v => cases hop
      | hold d => cases hop

/-- What a word written to CMD does to the block (10_state R34). -/
theorem blockStep_of_issueWord {s t : State} {w : Word} {rest : List Move} (ha : s.agenda = .issue w :: rest)
    (h : issueWord w { s with agenda := rest } = .next t) : BlockStep s t := by
  have hw : s.agenda.head? = some (.issue w) := by simp [ha]
  by_cases hf : s.fault = none
  · cases hm : s.mode with
    | busy =>
      rw [issueWord_busy w (s := { s with agenda := rest }) hf hm] at h
      cases h
      exact .faults w _ ⟨_, _, _, _⟩ hw hf (.inl ⟨rfl, hm⟩)
    | idle =>
      have hs : ready { s with agenda := rest } := ⟨hf, hm⟩
      cases hd : decode w with
      | ok i =>
        rw [issueWord_legal hd, exec_of_decode hd, issueLegal_ready _ _ hs] at h
        cases h
        exact .accepts w i ⟨_, _, _, _⟩ hw hd ⟨hf, hm⟩
      | error r =>
        rw [issueWord_illegal hd, issueIllegal_ready _ hs] at h
        cases h
        exact .faults w _ ⟨_, _, _, _⟩ hw hf (.inr ⟨rfl, hm, r, hd⟩)
  · rw [issueWord_faulted w (s := { s with agenda := rest }) hf] at h
    cases h
    exact .waits ⟨_, _, _, _⟩

/-- Every step of the machine is one of the forms of `BlockStep`. -/
theorem blockStep_of_step {s t : State} (h : step s = .next t) : BlockStep s t := by
  rcases step_next h with ⟨ht, h⟩ | ⟨rest, ha, hm, rfl⟩ | ⟨w, rest, ha, h⟩ | ⟨a, v, rest, ha, hr, rfl⟩ |
    ⟨a, v, rest, l, ha, hr, hl, rfl⟩ | ⟨rest, ha, rfl⟩ | ⟨cells, rest, ha, htr, hm, hf, rfl⟩
  · exact blockStep_of_sequencerStep ht h
  · exact .waits ⟨_, _, _, _⟩
  · exact blockStep_of_issueWord ha h
  · exact .waits ⟨_, _, _, _⟩
  · exact .waits ⟨_, _, _, _⟩
  · exact .resets ⟨_, _, _, _⟩ (by simp [ha])
  · exact .waits ⟨_, _, _, _⟩

end Sys2Proof.Machine
end

section
/-! PROOFS. The lists of micro-operations that a command leaves in PEND: they lead both lines to bus idle (40_transport R107), and
an SREAD stands last in them (42_lcd_commands R159, R160, R162). -/

namespace Sys2Proof.Machine

/-- Performed from any levels, the operations leave both lines HIGH, or write no line at all. -/
def settles (ops : List MicroOp) : Prop :=
  ∀ ls, linesAfterAll ls (opsEvents ops) = if (opsEvents ops).any isLineEvent then bothHigh else ls

theorem settles_nil : settles [] := fun _ => rfl

theorem settles_hold (d : Duration) : settles [.hold d] := fun _ => rfl

theorem settles_sread (p : Addr) (i : Fin 17) : settles [.sread p i] := fun _ => rfl

theorem settles_append {xs ys : List MicroOp} (hx : settles xs) (hy : settles ys) : settles (xs ++ ys) := by
  intro ls
  rw [opsEvents_append, linesAfterAll_append, hy, hx, List.any_append]
  cases (opsEvents xs).any isLineEvent <;> cases (opsEvents ys).any isLineEvent <;> rfl

theorem settles_flatMap {α : Type} {f : α → List MicroOp} (l : List α) (h : ∀ x, settles (f x)) : settles (l.flatMap f) := by
  induction l with
  | nil => exact settles_nil
  | cons x l ih => exact settles_append (h x) ih

/-- The stop of a frame leaves both lines HIGH, whatever they were (40_transport R107). -/
theorem linesAfterAll_stopOps (ls : Lines) : linesAfterAll ls (opsEvents stopOps) = bothHigh := rfl

theorem settles_frame (b : Byte) : settles (frame b) := by
  intro ls
  have hany : (opsEvents (frame b)).any isLineEvent = true := by
    rw [frame, opsEvents_append, List.any_append, Bool.or_eq_true]
    exact .inr rfl
  rw [hany, frame, opsEvents_append, linesAfterAll_append, linesAfterAll_stopOps, if_pos rfl]

theorem settles_nib (x : Byte) (rs : BitVec 1) : settles (nib x rs) :=
  settles_append (settles_append (settles_append (settles_append (settles_append (settles_frame _) (settles_frame _))
    (settles_frame _)) (settles_hold _)) (settles_frame _)) (settles_hold _)

theorem settles_chr (c : Byte) : settles (chr c) :=
  settles_append (settles_append (settles_hold _) (settles_nib _ _)) (settles_nib _ _)

theorem settles_cmd (c : Byte) : settles (cmd c) :=
  settles_append (settles_append (settles_append (settles_hold _) (settles_nib _ _)) (settles_hold _)) (settles_nib _ _)

theorem settles_initOps (p : Params) : settles (initOps p) :=
  settles_append (settles_hold _) (settles_flatMap _ settles_cmd)

theorem settles_gotoOps (col row : Byte) : settles (gotoOps col row) := by
  unfold gotoOps
  split
  · exact settles_append (settles_cmd _) (settles_hold _)
  · exact settles_nil

/-- The expansion of every command leads the lines to bus idle, the string loop's start having no line write of its own. -/
theorem settles_expand (p : Params) (i : Instr) : settles (expand p i) := by
  cases i with
  | i2cOut arg => exact settles_frame _
  | lcdNibble x rs => exact settles_nib x rs
  | lcdChar c => exact settles_chr c
  | lcdCmd c => exact settles_cmd c
  | lcdInit => exact settles_initOps p
  | lcdStr q => exact settles_sread q 0
  | lcdGoto col row => exact settles_gotoOps col row
  | lcdStrAt row1 col1 q => exact settles_append (settles_gotoOps _ _) (settles_sread q 0)
  | lcdCharAt row1 col1 c => exact settles_append (settles_gotoOps _ _) (settles_chr c)

theorem sreadLast_cons {op : MicroOp} {ops : List MicroOp} (h : sreadLast (op :: ops) = true) : sreadLast ops = true := by
  cases ops with
  | nil => rfl
  | cons op' ops => exact (Bool.and_eq_true_iff.1 h).2

/-- Nothing stands behind an SREAD that is last. -/
theorem eq_nil_of_sreadLast {p : Addr} {i : Fin 17} {ops : List MicroOp} (h : sreadLast (.sread p i :: ops) = true) :
    ops = [] := by
  cases ops with
  | nil => rfl
  | cons op ops => exact absurd (Bool.and_eq_true_iff.1 h).1 (by simp [isSread])

/-- Operations without an SREAD, before at most one operation more. -/
theorem sreadLast_append {xs : List MicroOp} (hx : plain xs) {ys : List MicroOp} (hy : ys.length ≤ 1) :
    sreadLast (xs ++ ys) = true := by
  induction xs with
  | nil =>
    match ys with
    | [] => rfl
    | [_] => rfl
  | cons op xs ih =>
    have hxs : sreadLast (xs ++ ys) = true := ih (fun o ho => hx o (by simp [ho]))
    have hop : isSread op = false := hx op (by simp)
    rw [List.cons_append]
    cases hzs : xs ++ ys with
    | nil => rfl
    | cons z zs => simpa [sreadLast, hop, ← hzs] using hxs

theorem sreadLast_of_plain {xs : List MicroOp} (hx : plain xs) : sreadLast xs = true := by
  simpa using sreadLast_append hx (ys := []) (by simp)

/-- The expansion of every command has at most one SREAD, at its end. -/
theorem sreadLast_expand (p : Params) (i : Instr) : sreadLast (expand p i) = true := by
  cases i with
  | i2cOut arg => exact sreadLast_of_plain (frame_plain _)
  | lcdNibble x rs => exact sreadLast_of_plain (nib_plain x rs)
  | lcdChar c => exact sreadLast_of_plain (chr_plain c)
  | lcdCmd c => exact sreadLast_of_plain (cmd_plain c)
  | lcdInit => exact sreadLast_of_plain (initOps_plain p)
  | lcdStr q => rfl
  | lcdGoto col row => exact sreadLast_of_plain (gotoOps_plain col row)
  | lcdStrAt row1 col1 q => exact sreadLast_append (gotoOps_plain _ _) (by simp [strOps])
  | lcdCharAt row1 col1 c => exact sreadLast_of_plain (plain_append (gotoOps_plain _ _) (chr_plain c))

end Sys2Proof.Machine
end

section
/-! PROOFS. PEND is empty in IDLE and leads the lines to bus idle (10_state R27, R40): kept by every step, and what it gives at an
IDLE point. -/

namespace Sys2Proof.Machine

/-- The lines are at bus idle once TRACE holds a line write, at their reset levels before (10_state R40). -/
def settled (s : State) : Prop := s.lines = if s.trace.any isLineEvent then bothHigh else resetLines s.params

/-- With no line write pending, PEND's leading to bus idle says that the lines are there. -/
theorem settled_of_settleInv {s : State} (h : settleInv s) (hp : opsEvents s.pend = []) : settled s := by
  simpa [settleInv, settled, hp] using h.2

/-- From settled lines, operations that settle lead to bus idle. -/
theorem settleInv_of_settled {s : State} (h : settled s) (hl : sreadLast s.pend = true) (hp : settles s.pend) :
    settleInv s := by
  refine ⟨hl, ?_⟩
  rw [hp s.lines, h]
  cases s.trace.any isLineEvent <;> cases (opsEvents s.pend).any isLineEvent <;> rfl

/-- Events without a line write keep settled lines settled. -/
theorem settled_of_append {s t : State} (h : settled s) {es : List Event} (hes : es.any isLineEvent = false)
    (hlines : t.lines = s.lines) (htrace : t.trace = s.trace ++ es) (hparams : t.params = s.params) : settled t := by
  simpa [settled, hlines, htrace, hparams, hes] using h

/-- A performed operation leaves the rest of PEND to lead the lines on from where it put them. -/
theorem settleInv_performed {s : State} {op : MicroOp} {rest : List MicroOp} (h : settleInv s) (hp : s.pend = op :: rest) :
    settleInv (performed s (opEvents op) rest) := by
  obtain ⟨hlast, hlines⟩ := h
  rw [hp] at hlast hlines
  rw [opsEvents_cons, linesAfterAll_append, List.any_append, ← Bool.or_assoc, ← List.any_append] at hlines
  exact ⟨sreadLast_cons hlast, hlines⟩

/-- Every form of a step keeps PEND empty in IDLE. -/
theorem pendInv_of_blockStep {s t : State} (h : pendInv s) (hst : BlockStep s t) : pendInv t := by
  cases hst with
  | waits e => exact h
  | faults w r e hw hf hr => exact h
  | accepts w i e hw hi hs => exact fun hm => nomatch hm
  | completes e ht hf hm hp => exact fun _ => hp
  | performs op rest e ht hf hm hp hop => exact fun hi => nomatch hm.symm.trans hi
  | endsString p i rest es e hf hm hp hes => exact fun hi => nomatch hm.symm.trans hi
  | continuesString p i j rest a c e hf hm hp => exact fun hi => nomatch hm.symm.trans hi
  | resets e hr => exact fun _ => rfl

/-- Every form of a step keeps an SREAD last in PEND and PEND leading the lines to bus idle. -/
theorem settleInv_of_blockStep {s t : State} (hpend : pendInv s) (h : settleInv s) (hst : BlockStep s t) : settleInv t := by
  cases hst with
  | waits e => exact h
  | faults w r e hw hf hr => exact h
  | accepts w i e hw hi hs =>
    have hset : settled s := settled_of_settleInv h (by rw [hpend hs.2]; rfl)
    exact settleInv_of_settled (settled_of_append hset (es := [.cmd w]) rfl rfl rfl rfl) (sreadLast_expand s.params i)
      (settles_expand s.params i)
  | completes e ht hf hm hp =>
    have hset : settled s := settled_of_settleInv h (by rw [hp]; rfl)
    refine settleInv_of_settled (settled_of_append hset (es := [.done]) rfl rfl rfl rfl) h.1 ?_
    simpa [hp] using settles_nil
  | performs op rest e ht hf hm hp hop => exact settleInv_performed h hp
  | endsString p i rest es e hf hm hp hes =>
    obtain rfl : rest = [] := eq_nil_of_sreadLast (hp ▸ h.1)
    have hset : settled s := settled_of_settleInv h (by rw [hp]; rfl)
    have hes : es.any isLineEvent = false := by rcases hes with rfl | ⟨a, c, rfl⟩ <;> rfl
    exact settleInv_of_settled (settled_of_append hset hes rfl rfl rfl) rfl settles_nil
  | continuesString p i j rest a c e hf hm hp =>
    obtain rfl : rest = [] := eq_nil_of_sreadLast (hp ▸ h.1)
    have hset : settled s := settled_of_settleInv h (by rw [hp]; rfl)
    refine settleInv_of_settled (settled_of_append hset (es := [.read a c]) rfl rfl rfl rfl) ?_ ?_
    · simpa using sreadLast_append (chr_plain c) (ys := [.sread p j]) (by simp)
    · simpa using settles_append (settles_chr c) (settles_sread p j)
  | resets e hr => exact ⟨rfl, rfl⟩

/-- Settles O25: with nothing but the string loop able to add to PEND, what it adds settles the lines again. -/
theorem stepKeepsLinesSettled : Obligations.StepKeepsLinesSettled := by
  intro s t ⟨hpend, hsettle⟩ h
  have hst := blockStep_of_step h
  exact ⟨pendInv_of_blockStep hpend hst, settleInv_of_blockStep hpend hsettle hst⟩

/-- Settles O26: at an IDLE point nothing is pending, so the lines are settled. -/
theorem idleLines : Obligations.IdleLines := by
  intro s hpend hsettle hm
  have hset : settled s := settled_of_settleInv hsettle (by rw [hpend hm]; rfl)
  constructor <;> intro htrace
  · have hlines : s.lines = bothHigh := by simpa [settled, htrace] using hset
    exact ⟨congrArg Lines.scl hlines, congrArg Lines.sda hlines⟩
  · have hlines : s.lines = resetLines s.params := by simpa [settled, htrace] using hset
    exact ⟨congrArg Lines.scl hlines, congrArg Lines.sda hlines⟩

end Sys2Proof.Machine
end

section
/-! PROOFS. The host's port (10_state R34, R36, R25): the issue step in all its cases, the frame of a command, STATUS, and a set
FAULT. -/

namespace Sys2Proof.Machine

/-- Settles O8: each case is one of the four issue steps, applied to the state with the word taken off the agenda. -/
theorem hostIssueStep : Obligations.HostIssueStep := by
  intro s w rest ha
  rw [step_issue ha]
  refine ⟨fun hf => ?_, fun hf hm => ?_, fun hf hm r hr => ?_, fun hf hm i hi => ?_⟩
  · exact issueWord_faulted w hf
  · exact issueWord_busy w hf hm
  · rw [issueWord_illegal hr]
    exact issueIllegal_ready w ⟨hf, hm⟩
  · rw [issueWord_legal hi, exec_of_decode hi]
    exact issueLegal_ready w _ ⟨hf, hm⟩

theorem decode_of_decodeTableWord {nbits w : Nat} {i : Instr} (h : decodeTableWord nbits w = some i) :
    decode (commandWord nbits w) = .ok i := by
  unfold decodeTableWord at h
  split at h
  · rename_i j hj
    cases h
    exact hj
  · cases h

/-- Settles O9: the step takes the word off the agenda and is `exec` of what it decodes to. -/
theorem stepRunsDecoded : Obligations.StepRunsDecoded := by
  have hexec : ∀ (s : State) (w : Word) (rest : List Move) (i : Instr), s.agenda = .issue w :: rest → decode w = .ok i →
      step s = exec i { s with agenda := rest } := by
    intro s w rest i ha hi
    rw [step_issue ha, issueWord_legal hi]
  exact ⟨hexec, fun s nbits w i h => hexec _ _ s.agenda i rfl (decode_of_decodeTableWord h)⟩

/-- Settles O10: `exec` is an issue step, and an issue step answers a next state whatever the guard decides. -/
theorem execNeverStops : Obligations.ExecNeverStops := by
  intro i s
  exact ⟨_, exec_eq_issueLegal i s⟩

/-- Settles O11: whether the word has no effect, faults the block or is accepted, only FAULT, MODE, PEND, TRACE and the marks
can change. -/
theorem execFrame : Obligations.ExecFrame := by
  intro i s t h
  rw [exec_eq_issueLegal] at h
  rcases issueLegal_cases (encode i) (expand s.params i) s with ⟨hf, e⟩ | ⟨hf, hm, e⟩ | ⟨hf, hm, e⟩ <;> rw [e] at h <;> cases h
  · simp
  · simp [hm]
  · simp [ready, hf, hm]

/-- STATUS is the number whose only bit is BUSY. -/
theorem status_eq_toNat (s : State) : status s = (decide (s.mode = .busy)).toNat := by
  cases hm : s.mode <;> simp [status, hm]

/-- The step at the sequencer's turn with nothing pending completes the command (10_state R35). -/
theorem step_completes {s : State} (ht : sequencerMoves s) (hf : s.fault = none) (hm : s.mode = .busy) (hp : s.pend = []) :
    step s = .next { s with agenda := afterTurn s.agenda, mode := .idle, trace := s.trace ++ [.done] } := by
  rw [step_sequencerMoves ht]
  simp [sequencerStep, hf, hm, hp, State.finish, State.emit]

/-- MODE becomes BUSY by the acceptance of a command only. -/
theorem accepted_of_becomes_busy {s t : State} (hst : BlockStep s t) (hs : s.mode = .idle) (ht : t.mode = .busy) :
    s.fault = none ∧ ∃ w i, s.agenda.head? = some (.issue w) ∧ decode w = .ok i := by
  cases hst with
  | accepts w i e hw hi hready => exact ⟨hready.1, w, i, hw, hi⟩
  | waits e => exact nomatch hs.symm.trans ht
  | faults w r e hw hf hr => exact nomatch hs.symm.trans ht
  | completes e hturn hf hm hp => exact nomatch hs.symm.trans hm
  | performs op rest e hturn hf hm hp hop => exact nomatch hs.symm.trans hm
  | endsString p i rest es e hf hm hp hes => exact nomatch hs.symm.trans hm
  | continuesString p i j rest a c e hf hm hp => exact nomatch hs.symm.trans hm
  | resets e hr => exact nomatch ht

/-- MODE becomes IDLE by the sequencer's step that finds PEND empty, or by reset, only. -/
theorem completed_of_becomes_idle {s t : State} (hst : BlockStep s t) (hs : s.mode = .busy) (ht : t.mode = .idle) :
    (s.pend = [] ∧ sequencerMoves s) ∨ s.agenda.head? = some .reset := by
  cases hst with
  | completes e hturn hf hm hp => exact .inl ⟨hp, hturn⟩
  | resets e hr => exact .inr hr
  | waits e => exact nomatch hs.symm.trans ht
  | faults w r e hw hf hr => exact nomatch hs.symm.trans ht
  | accepts w i e hw hi hready => exact nomatch ht
  | performs op rest e hturn hf hm hp hop => exact nomatch hm.symm.trans ht
  | endsString p i rest es e hf hm hp hes => exact nomatch hm.symm.trans ht
  | continuesString p i j rest a c e hf hm hp => exact nomatch hm.symm.trans ht

/-- Settles O15: STATUS is read off MODE, and the forms of a step say when MODE changes. -/
theorem statusShowsBusy : Obligations.StatusShowsBusy := by
  refine ⟨fun s => ?_, fun s w i rest ha hf hm hi => ?_, fun s ht hf hm hp => ?_, fun s t h => ?_, fun s t h => ?_, fun p => rfl⟩
  · rw [status_eq_toNat]
    cases decide (s.mode = .busy) <;> simp [Nat.testBit_succ]
  · exact ⟨_, (hostIssueStep s w rest ha).2.2.2 hf hm i hi, rfl⟩
  · exact ⟨_, step_completes ht hf hm hp, rfl⟩
  · exact accepted_of_becomes_busy (blockStep_of_step h)
  · exact completed_of_becomes_idle (blockStep_of_step h)

/-- Settles O14: the step at the sequencer's turn with nothing pending, read field by field. -/
theorem doneCompletesCommand : Obligations.DoneCompletesCommand := by
  intro s hf hm hp ht
  exact ⟨_, step_completes ht hf hm hp, rfl, rfl, hp, rfl, rfl, hf, fun _ => rfl⟩

/-- Settles O12: a line write at PEND's head is performed, whichever move gives the sequencer its turn. -/
theorem lineWrites : Obligations.LineWrites := by
  intro s v rest ht hf hm
  exact ⟨fun hp => step_perform ht hf hm hp, fun hp => step_perform ht hf hm hp⟩

/-- A form of a step other than reset keeps a set FAULT: the others but waiting need FAULT = none. -/
theorem fault_kept_of_blockStep {s t : State} {m : FaultMark} (hst : BlockStep s t) (hm : s.fault = some m)
    (hr : s.agenda.head? ≠ some .reset) : t.fault = some m := by
  cases hst with
  | waits e => exact hm
  | resets e h => exact absurd h hr
  | accepts w i e hw hi hready => exact nomatch hready.1.symm.trans hm
  | faults w r e hw hf hr => exact nomatch hf.symm.trans hm
  | completes e hturn hf hbusy hp => exact nomatch hf.symm.trans hm
  | performs op rest e hturn hf hbusy hp hop => exact nomatch hf.symm.trans hm
  | endsString p i rest es e hf hbusy hp hes => exact nomatch hf.symm.trans hm
  | continuesString p i j rest a c e hf hbusy hp => exact nomatch hf.symm.trans hm

theorem step_reset {s : State} {rest : List Move} (h : s.agenda = .reset :: rest) :
    step s = .next (State.blockReset { s with agenda := rest }) := by
  simp [step, h, takeMove]

/-- Settles O17: no form of a step but reset changes a set FAULT, and STATUS is read off MODE alone. -/
theorem faultIsSticky : Obligations.FaultIsSticky := by
  refine ⟨fun s t m h hm hr => fault_kept_of_blockStep (blockStep_of_step h) hm hr, fun s t h hr => ?_, fun s f => rfl⟩
  obtain ⟨rest, ha⟩ := List.head?_eq_some_iff.1 hr
  rw [step_reset ha] at h
  cases h
  rfl

end Sys2Proof.Machine
end

section
/-! PROOFS. The lines and TRACE (10_state R29 to R31, R37, R39): what changes a line, how TRACE grows, and how it tells the lines. -/

namespace Sys2Proof.Machine

/-- A form of a step other than reset adds at most one event to TRACE, and changes the lines only as the events say. -/
theorem trace_of_blockStep {s t : State} (hst : BlockStep s t) (hr : s.agenda.head? ≠ some .reset) :
    ∃ es, t.trace = s.trace ++ es ∧ es.length ≤ 1 ∧ t.lines = linesAfterAll s.lines es ∧ t.params = s.params := by
  cases hst with
  | waits e => exact ⟨[], by simp, by simp, rfl, rfl⟩
  | faults w r e hw hf hr => exact ⟨[], by simp, by simp, rfl, rfl⟩
  | accepts w i e hw hi hready => exact ⟨[.cmd w], rfl, by simp, rfl, rfl⟩
  | completes e hturn hf hbusy hp => exact ⟨[.done], rfl, by simp, rfl, rfl⟩
  | performs op rest e hturn hf hbusy hp hop => exact ⟨opEvents op, rfl, by cases op <;> simp [opEvents], rfl, rfl⟩
  | endsString p i rest es e hf hbusy hp hes =>
    rcases hes with rfl | ⟨a, c, rfl⟩
    · exact ⟨[], rfl, by simp, rfl, rfl⟩
    · exact ⟨[.read a c], rfl, by simp, rfl, rfl⟩
  | continuesString p i j rest a c e hf hbusy hp => exact ⟨[.read a c], rfl, by simp, rfl, rfl⟩
  | resets e h => exact absurd h hr

/-- Settles O20: every form of a step but reset adds at most one event. -/
theorem traceOnlyGrows : Obligations.TraceOnlyGrows := by
  intro s t h hr
  obtain ⟨es, htrace, hlen, -⟩ := trace_of_blockStep (blockStep_of_step h) hr
  exact ⟨es, htrace, hlen⟩

/-- Settles O27: the lines after the trace and one event more are the lines after that event. -/
theorem stepKeepsLinesAsTraced : Obligations.StepKeepsLinesAsTraced := by
  intro s t hs h
  by_cases hr : s.agenda.head? = some .reset
  · obtain ⟨rest, ha⟩ := List.head?_eq_some_iff.1 hr
    rw [step_reset ha] at h
    cases h
    rfl
  · obtain ⟨es, htrace, -, hlines, hparams⟩ := trace_of_blockStep (blockStep_of_step h) hr
    rw [linesInv] at hs ⊢
    rw [hlines, htrace, hparams, linesAfterAll_append, ← hs]

/-- A form of a step but reset that changes a line is the sequencer performing an operation. -/
theorem performs_of_lines_ne {s t : State} (hst : BlockStep s t) (hr : s.agenda.head? ≠ some .reset)
    (hne : t.lines ≠ s.lines) :
    sequencerMoves s ∧ ∃ op rest, s.pend = op :: rest ∧ t.lines = linesAfterAll s.lines (opEvents op) := by
  cases hst with
  | performs op rest e hturn hf hbusy hp hop => exact ⟨hturn, op, rest, hp, rfl⟩
  | resets e h => exact absurd h hr
  | waits e => exact absurd rfl hne
  | faults w r e hw hf hr => exact absurd rfl hne
  | accepts w i e hw hi hready => exact absurd rfl hne
  | completes e hturn hf hbusy hp => exact absurd rfl hne
  | endsString p i rest es e hf hbusy hp hes => exact absurd rfl hne
  | continuesString p i j rest a c e hf hbusy hp => exact absurd rfl hne

/-- Settles O19: only a performed operation changes a line, and of the operations only the line's own write. -/
theorem onlyLineWritesChangeLines : Obligations.OnlyLineWritesChangeLines := by
  intro s t h hr
  have hperf := performs_of_lines_ne (blockStep_of_step h) hr
  constructor <;> intro hne
  · obtain ⟨hturn, op, rest, hp, hlines⟩ := hperf (fun e => hne (congrArg Lines.scl e))
    have hscl := congrArg Lines.scl hlines
    cases op with
    | wscl v => exact ⟨hturn, v, rest, hp, hscl⟩
    | wsda v => exact absurd hscl hne
    | hold d => exact absurd hscl hne
    | sread p i => exact absurd hscl hne
  · obtain ⟨hturn, op, rest, hp, hlines⟩ := hperf (fun e => hne (congrArg Lines.sda e))
    have hsda := congrArg Lines.sda hlines
    cases op with
    | wsda v => exact ⟨hturn, v, rest, hp, hsda⟩
    | wscl v => exact absurd hsda hne
    | hold d => exact absurd hsda hne
    | sread p i => exact absurd hsda hne

/-- In IDLE a form of a step but reset leaves the lines, and adds nothing to TRACE or the `Cmd` of an accepted word. -/
theorem idle_step_adds_cmd {s t : State} (hst : BlockStep s t) (hr : s.agenda.head? ≠ some .reset) (hidle : s.mode = .idle) :
    t.lines = s.lines ∧ (t.trace = s.trace ∨ ∃ w, t.trace = s.trace ++ [.cmd w]) := by
  cases hst with
  | waits e => exact ⟨rfl, .inl rfl⟩
  | faults w r e hw hf hr => exact ⟨rfl, .inl rfl⟩
  | accepts w i e hw hi hready => exact ⟨rfl, .inr ⟨w, rfl⟩⟩
  | resets e h => exact absurd h hr
  | completes e hturn hf hm hp => exact nomatch hidle.symm.trans hm
  | performs op rest e hturn hf hm hp hop => exact nomatch hidle.symm.trans hm
  | endsString p i rest es e hf hm hp hes => exact nomatch hidle.symm.trans hm
  | continuesString p i j rest a c e hf hm hp => exact nomatch hidle.symm.trans hm

/-- An empty TRACE with no command open tells IDLE. -/
theorem idle_of_trace_nil {s : State} (h : traceInv s) (ht : s.trace = []) : s.mode = .idle := by
  rw [traceInv, ht] at h
  exact (Option.some.inj h).symm

/-- Settles O22: reset's values by computation; an empty TRACE means IDLE, and there a step adds at most a `Cmd`. -/
theorem resetValues : Obligations.ResetValues := by
  refine ⟨fun p => ⟨rfl, rfl, rfl, rfl, rfl, rfl⟩, ⟨Config.params, rfl⟩, fun s rest ha => ?_, fun s t hs htrace hr h => ?_⟩
  · exact ⟨_, step_reset ha, rfl, rfl, rfl, rfl, rfl, rfl⟩
  · obtain ⟨hlines, hcmd⟩ := idle_step_adds_cmd (blockStep_of_step h) hr (idle_of_trace_nil hs htrace)
    exact ⟨congrArg Lines.scl hlines, congrArg Lines.sda hlines, by simpa [htrace] using hcmd⟩

/-- Settles O29: at reset nothing is pending, the memory is empty, and an empty TRACE leaves the lines at their reset levels. -/
theorem invariantsAtReset : Obligations.InvariantsAtReset :=
  fun _ => ⟨rfl, fun _ => rfl, ⟨rfl, rfl⟩, rfl, rfl⟩

end Sys2Proof.Machine
end

section
/-! PROOFS. A command left alone runs to its end (10_state R36, 42_lcd_commands R159, R167): its line writes and holds in order, the
string loop character by character, then `Done`. -/

namespace Sys2Proof.Machine

/-! ### How many steps a command takes -/

@[simp] theorem length_bitOps (n : Nat) (v : Bool) : (bitOps n v).length = 6 := rfl

@[simp] theorem length_frame (b : Byte) : (frame b).length = 132 := by
  simp [frame, startOps, ackp, stopOps, addrSeq, payloadBits]

@[simp] theorem length_nib (x : Byte) (rs : BitVec 1) : (nib x rs).length = 530 := by simp [nib]

@[simp] theorem length_chr (c : Byte) : (chr c).length = 1061 := by
  rw [chr, List.length_append, List.length_append, length_nib, length_nib, List.length_singleton]

@[simp] theorem length_cmd (c : Byte) : (cmd c).length = 1062 := by simp [cmd]

@[simp] theorem length_initOps (p : Params) : (initOps p).length = 5311 := by
  simp [initOps, initBytes]

theorem length_gotoOps (col row : Byte) : (gotoOps col row).length ≤ 1063 := by
  unfold gotoOps
  split <;> simp

/-! ### What a read leaves -/

/-- A read's event leaves the lines. -/
theorem emit_read_performed (s : State) (evs : List Event) (ops : List MicroOp) (a : Nat) (c : Byte) :
    (performed s evs ops).emit (.read a c) = performed s (evs ++ [.read a c]) ops := by
  simp [performed, State.emit, linesAfterAll, linesAfter]

/-! ### A block with a command in progress and nothing on the agenda -/

/-- The sequencer alone has moves: a command is in progress, without a fault, with nothing on the agenda and no byte overwritten. -/
structure Alone (s : State) : Prop where
  agenda : s.agenda = []
  fault : s.fault = none
  mode : s.mode = .busy
  clobbered : s.clobbered = []

theorem alone_performed {s : State} (h : Alone s) (evs : List Event) (ops : List MicroOp) : Alone (performed s evs ops) :=
  ⟨h.agenda, h.fault, h.mode, h.clobbered⟩

/-- An accepted command leaves the sequencer alone. -/
theorem alone_accept {s : State} (hs : ready s) (ha : s.agenda = []) (w : Word) (ops : List MicroOp) : Alone (s.accept w ops) :=
  ⟨ha, hs.1, rfl, rfl⟩

section
variable {s : State} (h : Alone s) (evs : List Event)
include h

/-- Line writes and holds add their events, one step each. -/
theorem run_plain_performed {ops : List MicroOp} (hops : plain ops) (rest : List MicroOp) :
    runSteps ops.length (performed s evs (ops ++ rest)) = .next (performed s (evs ++ opsEvents ops) rest) := by
  rw [← performed_performed s evs (opsEvents ops) (ops ++ rest) rest]
  exact run_plain ops hops rest (performed s evs (ops ++ rest)) h.agenda h.fault h.mode rfl

/-- With an SREAD pending the step performs it. -/
theorem step_sread (p : Addr) (i : Fin 17) (rest : List MicroOp) :
    step (performed s evs (.sread p i :: rest)) = performSread p i (performed s evs rest) := by
  have ha : (performed s evs (.sread p i :: rest)).agenda = [] := h.agenda
  rw [step_perform (.inl ha) h.fault h.mode rfl, ha]
  exact congrArg (performSread p i) (by simp only [performed, afterTurn, h.agenda])

/-- A readable byte is read as memory holds it. -/
theorem memRead_performed {a : Nat} {c : Byte} (hc : holdsByte s a c) (ops : List MicroOp) :
    (performed s evs ops).memRead a = some (c, performed s evs ops) :=
  State.memRead_plain hc.1 hc.2 (by simp [performed, h.clobbered])

/-- SREAD of a character reads it and puts its write, and the loop's next SREAD, before the rest (42_lcd_commands R159). -/
theorem step_sread_char {p : Addr} {i j : Fin 17} {c : Byte} (hj : j.val = i.val + 1) (hc : holdsByte s (charAddr p i) c)
    (h0 : c ≠ 0) (rest : List MicroOp) :
    step (performed s evs (.sread p i :: rest)) =
      .next (performed s (evs ++ [.read (charAddr p i) c]) (chr c ++ (.sread p j :: rest))) := by
  have hi : i.val < 16 := by omega
  have hnext : (⟨i.val + 1, by omega⟩ : Fin 17) = j := Fin.ext hj.symm
  rw [step_sread h, performSread, dif_pos hi, memRead_performed h evs hc, hnext]
  simp only [emit_read_performed, sreadContinue, if_neg h0, List.append_assoc]
  rfl

/-- SREAD of a byte that ends the loop reads it (42_lcd_commands R159). -/
theorem step_sread_last {p : Addr} {i : Fin 17} {c : Byte} (hc : holdsByte s (charAddr p i) c)
    (hlast : (i.val < 16 ∧ c = 0) ∨ (i.val = 16 ∧ s.params.strPeek16 = true)) (rest : List MicroOp) :
    step (performed s evs (.sread p i :: rest)) = .next (performed s (evs ++ [.read (charAddr p i) c]) rest) := by
  rw [step_sread h, performSread, memRead_performed h evs hc]
  rcases hlast with ⟨hi, rfl⟩ | ⟨hi, hpeek⟩
  · simp [hi, sreadContinue, emit_read_performed]
  · simp [hi, show (performed s evs rest).params.strPeek16 = true from hpeek, emit_read_performed]

/-- SREAD at index 16 reads nothing where P_STR_PEEK16 does not hold (42_lcd_commands R159). -/
theorem step_sread_unread {p : Addr} {i : Fin 17} (hi : i.val = 16) (hpeek : s.params.strPeek16 = false)
    (rest : List MicroOp) : step (performed s evs (.sread p i :: rest)) = .next (performed s evs rest) := by
  rw [step_sread h, performSread]
  simp [hi, show (performed s evs rest).params.strPeek16 = false from hpeek]

/-- The string loop writes the characters from index k on, 1062 steps each (42_lcd_commands R159). -/
theorem run_chars (p : Addr) (cs : List Byte) (i j : Fin 17) (hj : j.val = i.val + cs.length) (hcs : holdsChars s p i.val cs) :
    runSteps (1062 * cs.length) (performed s evs [.sread p i]) =
      .next (performed s (evs ++ charEvents p i.val cs) [.sread p j]) := by
  induction cs generalizing evs i with
  | nil =>
    obtain rfl : j = i := Fin.ext hj
    simp [charEvents, runSteps_zero]
  | cons c cs ih =>
    obtain ⟨h0, hexists, hread, hrest⟩ := hcs
    rw [List.length_cons] at hj
    obtain ⟨i', hi'⟩ : ∃ i' : Fin 17, i'.val = i.val + 1 := ⟨⟨i.val + 1, by omega⟩, rfl⟩
    have hstep := step_sread_char h evs hi' ⟨hexists, hread⟩ h0 []
    have hchr := run_plain_performed h (evs ++ [.read (charAddr p i) c]) (chr_plain c) [.sread p i']
    have hloop := ih (evs ++ [.read (charAddr p i) c] ++ opsEvents (chr c)) i' (by omega) (hi' ▸ hrest)
    rw [length_chr] at hchr
    rw [List.length_cons, show 1062 * (cs.length + 1) = 1061 + 1062 * cs.length + 1 by omega, runSteps_succ hstep,
      runSteps_add hchr, hloop, hi']
    simp [charEvents, charAddr]

/-- The step after the last character: the terminator, the byte at p + 16, or no read at all (42_lcd_commands R159). -/
theorem step_string_end {p : Addr} {cs : List Byte} {d : Byte} {j : Fin 17} (hj : j.val = cs.length) (hs : holdsString s p cs d) :
    step (performed s evs [.sread p j]) = .next (performed s (evs ++
      (if cs.length < 16 then [.read (p.toNat + cs.length) 0]
       else if s.params.strPeek16 then [.read (p.toNat + 16) d] else [])) []) := by
  obtain ⟨-, hlen, hend, hpeek⟩ := hs
  have haddr : charAddr p j = p.toNat + cs.length := congrArg (p.toNat + ·) hj
  by_cases hlt : cs.length < 16
  · rw [if_pos hlt, step_sread_last h evs (haddr ▸ hend hlt) (.inl ⟨hj ▸ hlt, rfl⟩), haddr]
  · have h16 : cs.length = 16 := by omega
    rw [if_neg hlt]
    cases hp : s.params.strPeek16 with
    | false => simpa using step_sread_unread h evs (hj.trans h16) hp []
    | true =>
      rw [h16] at haddr
      rw [step_sread_last h evs (haddr ▸ hpeek h16 hp) (.inr ⟨hj.trans h16, hp⟩), haddr]
      rfl

/-- The string loop performs a string write, and leaves nothing pending (42_lcd_commands R160). -/
theorem run_string {p : Addr} {cs : List Byte} {d : Byte} (hs : holdsString s p cs d) :
    runSteps (1062 * cs.length + 1) (performed s evs (strOps p)) = .next (performed s (evs ++ stringEvents s p cs d) []) := by
  have hlen : cs.length < 17 := Nat.lt_succ_of_le hs.2.1
  have hloop := run_chars h evs p cs 0 ⟨cs.length, hlen⟩ (by simp) hs.1
  rw [strOps, runSteps_add hloop, runSteps_succ (step_string_end h _ rfl hs), runSteps_zero, List.append_assoc]
  rfl

/-- With its operations performed, the command completes. -/
theorem run_done : runSteps 1 (performed s evs []) = .next (performed s evs []).finish :=
  run_finish h.agenda h.fault h.mode rfl

end

/-- What the command's word and events leave is the completed state. -/
theorem finish_performed_accept (s : State) (w : Word) (ops : List MicroOp) (evs : List Event) :
    (performed (s.accept w ops) evs []).finish = completed s w evs := rfl

end Sys2Proof.Machine
end

section
/-! PROOFS. The holds of each command's events add up to its minimum duration (70_reset_and_hazards R243). -/

namespace Sys2Proof.Machine

section
variable {α : Type} [AddCommMonoid α] (τ : Timing α)

/-- The holds of operations in two parts. -/
theorem holdSum_opsEvents_append (xs ys : List MicroOp) :
    holdSum τ (opsEvents (xs ++ ys)) = holdSum τ (opsEvents xs) + holdSum τ (opsEvents ys) := by
  rw [opsEvents_append, holdSum_append]

theorem holdSum_cons (e : Event) (es : List Event) : holdSum τ (e :: es) = eventTime τ e + holdSum τ es := by
  simp [holdSum]

theorem holdSum_hold (d : Duration) : holdSum τ (opsEvents [.hold d]) = durationValue τ d := by
  simp [holdSum, opEvents, eventTime]

theorem holdSum_startOps : holdSum τ (opsEvents startOps) = τ.named .start1 + τ.named .start2 := by
  simp [holdSum, startOps, opEvents, eventTime, durationValue]

theorem holdSum_ackp : holdSum τ (opsEvents ackp) = ackMin τ := by
  simp [holdSum, ackp, opEvents, eventTime, durationValue, ackMin, add_assoc]

theorem holdSum_stopOps : holdSum τ (opsEvents stopOps) = stopMin τ := by
  simp [holdSum, stopOps, opEvents, eventTime, durationValue, stopMin, add_assoc]

/-- Each bit takes three holds of its unit count. -/
theorem holdSum_bits (n : Nat) (bits : List Bool) :
    holdSum τ (opsEvents (bits.flatMap (bitOps n))) = (bits.length * (3 * n)) • τ.unit .transport := by
  induction bits with
  | nil => simp [holdSum]
  | cons v bits ih =>
    have hbit : holdSum τ (opsEvents (bitOps n v)) = (3 * n) • τ.unit .transport := by
      simp [holdSum, bitOps, opEvents, eventTime, durationValue, ← add_nsmul]
      congr 1
      omega
    rw [List.flatMap_cons, holdSum_opsEvents_append, ih, hbit, ← add_nsmul, List.length_cons]
    congr 1
    ring

theorem holdSum_frame (b : Byte) : holdSum τ (opsEvents (frame b)) = frameMin τ := by
  simp only [frame, holdSum_opsEvents_append, holdSum_startOps, holdSum_bits, holdSum_ackp, holdSum_stopOps, frameMin,
    addrSeq, payloadBits, List.length_map, List.length_cons, List.length_nil]
  abel

theorem holdSum_nib (x : Byte) (rs : BitVec 1) : holdSum τ (opsEvents (nib x rs)) = nibbleMin τ := by
  simp only [nib, holdSum_opsEvents_append, holdSum_frame, holdSum_hold, durationValue, nibbleMin]
  abel

theorem holdSum_chr (c : Byte) : holdSum τ (opsEvents (chr c)) = charMin τ := by
  simp only [chr, holdSum_opsEvents_append, holdSum_nib, holdSum_hold, durationValue, charMin]
  abel

theorem holdSum_cmd (c : Byte) : holdSum τ (opsEvents (cmd c)) = cmdMin τ := by
  simp only [cmd, holdSum_opsEvents_append, holdSum_nib, holdSum_hold, durationValue, cmdMin]
  abel

theorem holdSum_initOps (p : Params) : holdSum τ (opsEvents (initOps p)) = τ.named .powerUp + 5 • cmdMin τ := by
  simp only [initOps, initBytes, List.flatMap_cons, List.flatMap_nil, List.append_nil, holdSum_opsEvents_append, holdSum_cmd,
    holdSum_hold, durationValue]
  abel

theorem holdSum_gotoOps (col row : Byte) : holdSum τ (opsEvents (gotoOps col row)) = gotoMin τ col row := by
  unfold gotoOps gotoMin
  split
  · rw [holdSum_opsEvents_append, holdSum_cmd, holdSum_hold, durationValue]
  · rfl

theorem holdSum_charEvents (p : Addr) (k : Nat) (cs : List Byte) :
    holdSum τ (charEvents p k cs) = cs.length • charMin τ := by
  induction cs generalizing k with
  | nil => simp [charEvents, holdSum]
  | cons c cs ih =>
    have hread : eventTime τ (.read (p.toNat + k) c) = 0 := rfl
    rw [charEvents, List.cons_append, holdSum_cons, holdSum_append, holdSum_chr, ih, List.length_cons, succ_nsmul', hread,
      zero_add]

/-- The reads of a string write take no hold. -/
theorem holdSum_stringEvents (s : State) (p : Addr) (cs : List Byte) (d : Byte) :
    holdSum τ (stringEvents s p cs d) = cs.length • charMin τ := by
  rw [stringEvents, holdSum_append, holdSum_charEvents]
  split_ifs <;> simp [holdSum, eventTime]

end

/-- In the ranges of 00_scope R11 no sum of holds is negative. -/
theorem holdSum_nonneg {τ : Timing ℝ} (hτ : timingInRange τ) (es : List Event) : 0 ≤ holdSum τ es := by
  obtain ⟨hunit, hnamed⟩ := hτ
  refine List.sum_nonneg fun x hx => ?_
  obtain ⟨e, -, rfl⟩ := List.mem_map.1 hx
  cases e with
  | hold d =>
    cases d with
    | units n u => exact nsmul_nonneg (hunit u).le n
    | named o => exact hnamed o
  | cmd w => exact le_rfl
  | line l v => exact le_rfl
  | read a c => exact le_rfl
  | done => exact le_rfl

end Sys2Proof.Machine
end

section
/-! PROOFS. Every command issued to a ready block and left alone completes (10_state R36, R42), and takes its minimum duration
(10_state R32, 70_reset_and_hazards R243). -/

namespace Sys2Proof.Machine

theorem performed_nil (s : State) : performed s [] s.pend = s := by
  simp [performed, State.lines]

/-- What the string memory holds depends on the memory and the parameters only. -/
theorem holdsChars_accept (s : State) (w : Word) (ops : List MicroOp) (p : Addr) (k : Nat) (cs : List Byte) :
    holdsChars (s.accept w ops) p k cs ↔ holdsChars s p k cs := by
  induction cs generalizing k with
  | nil => exact Iff.rfl
  | cons c cs ih => simp [holdsChars, ih]

theorem holdsString_accept {s : State} {p : Addr} {cs : List Byte} {d : Byte} (h : holdsString s p cs d) (w : Word)
    (ops : List MicroOp) : holdsString (s.accept w ops) p cs d :=
  ⟨(holdsChars_accept s w ops p 0 cs).2 h.1, h.2⟩

section
variable {s : State} (hs : ready s) (ha : s.agenda = []) (w : Word)
include hs ha

/-- An accepted command without an SREAD takes a step for each operation, and one for `Done`. -/
theorem accepted_plain_runs {ops : List MicroOp} (hops : plain ops) :
    runSteps (ops.length + 1) (s.accept w ops) = .next (completed s w (opsEvents ops)) := by
  have h := alone_accept hs ha w ops
  have hrun := run_plain_performed h [] hops []
  rw [List.append_nil, List.nil_append] at hrun
  rw [← performed_nil (s.accept w ops), State.accept_pend, runSteps_add hrun, run_done h, finish_performed_accept]

/-- An accepted string command: its positioning, the string loop, `Done`. -/
theorem accepted_string_runs {ops : List MicroOp} (hops : plain ops) {p : Addr} {cs : List Byte} {d : Byte}
    (hstr : holdsString s p cs d) :
    runSteps (ops.length + (1062 * cs.length + 1 + 1)) (s.accept w (ops ++ strOps p)) =
      .next (completed s w (opsEvents ops ++ stringEvents s p cs d)) := by
  have h := alone_accept hs ha w (ops ++ strOps p)
  have hrun := run_plain_performed h [] hops (strOps p)
  have hloop := run_string h ([] ++ opsEvents ops) (holdsString_accept hstr w _)
  rw [← performed_nil (s.accept w _), State.accept_pend, runSteps_add hrun, runSteps_add hloop, run_done h,
    finish_performed_accept]
  rfl

end

/-- The command, accepted and left alone, completes in at most 18057 steps, with events whose holds add up to its minimum
duration. -/
def completesWithHolds (s : State) (k : Nat) (i : Instr) : Prop :=
  ∃ n evs, n ≤ 18057 ∧ runSteps n (s.accept (encode i) (expand s.params i)) = .next (completed s (encode i) evs) ∧
    ∀ τ : Timing ℝ, holdSum τ evs = commandMin τ k i

/-- A command without an SREAD has the events of its expansion. -/
theorem completesWithHolds_of_plain {s : State} (hs : ready s) (ha : s.agenda = []) {k : Nat} {i : Instr}
    (hops : plain (expand s.params i)) (hlen : (expand s.params i).length ≤ 18056)
    (hsum : ∀ τ : Timing ℝ, holdSum τ (opsEvents (expand s.params i)) = commandMin τ k i) : completesWithHolds s k i :=
  ⟨_, _, Nat.succ_le_succ hlen, accepted_plain_runs hs ha _ hops, hsum⟩

/-- Every command of a ready block completes with its holds, a string command with those of the characters it sends. -/
theorem completesWithHolds_of_sendsChars {s : State} (hs : ready s) (ha : s.agenda = []) {i : Instr} {k : Nat}
    (hk : sendsChars s k i) : completesWithHolds s k i := by
  have hplain := @completesWithHolds_of_plain s hs ha k
  cases i with
  | i2cOut arg => exact hplain (frame_plain _) (by simp [expand]) (fun τ => holdSum_frame τ _)
  | lcdNibble x rs => exact hplain (nib_plain x rs) (by simp [expand]) (fun τ => holdSum_nib τ x rs)
  | lcdChar c => exact hplain (chr_plain c) (by simp [expand]) (fun τ => holdSum_chr τ c)
  | lcdCmd c => exact hplain (cmd_plain c) (by simp [expand]) (fun τ => holdSum_cmd τ c)
  | lcdInit => exact hplain (initOps_plain _) (by simp [expand]) (fun τ => holdSum_initOps τ _)
  | lcdGoto col row =>
    exact hplain (gotoOps_plain col row) ((length_gotoOps col row).trans (by omega)) (fun τ => holdSum_gotoOps τ col row)
  | lcdCharAt row1 col1 c =>
    have hlen := length_gotoOps (zeroBased col1) (zeroBased row1)
    refine hplain (plain_append (gotoOps_plain _ _) (chr_plain c)) ?_ (fun τ => ?_)
    · simp only [expand, gotoOneBased, List.length_append, length_chr]
      omega
    · rw [expand, gotoOneBased, holdSum_opsEvents_append, holdSum_gotoOps, holdSum_chr, commandMin]
  | lcdStr p =>
    obtain ⟨cs, d, hstr, rfl⟩ := hk
    have hlen := hstr.2.1
    refine ⟨_, _, ?_, accepted_string_runs hs ha _ plain_nil hstr, fun τ => holdSum_stringEvents τ s p cs d⟩
    rw [List.length_nil]
    omega
  | lcdStrAt row1 col1 p =>
    obtain ⟨cs, d, hstr, rfl⟩ := hk
    have hlen := hstr.2.1
    have hgoto := length_gotoOps (zeroBased col1) (zeroBased row1)
    refine ⟨_, _, ?_, accepted_string_runs hs ha _ (gotoOps_plain _ _) hstr, fun τ => ?_⟩
    · omega
    · rw [holdSum_append, holdSum_gotoOps, holdSum_stringEvents, commandMin]

/-! ### Every command completes -/

/-- From readable bytes at p + k to p + 16 a string can be read: the characters up to a 0x00, or all up to index 15. -/
theorem exists_chars_of_readable {s : State} {p : Addr} (m k : Nat) (hm : k + m = 16)
    (h : ∀ a, k ≤ a → a ≤ 16 → ∃ c, holdsByte s (p.toNat + a) c) :
    ∃ cs, holdsChars s p k cs ∧ cs.length ≤ m ∧ (cs.length < m → holdsByte s (p.toNat + (k + cs.length)) 0) := by
  induction m generalizing k with
  | zero => exact ⟨[], trivial, le_rfl, fun hlt => absurd hlt (Nat.lt_irrefl 0)⟩
  | succ m ih =>
    obtain ⟨c, hc⟩ := h k le_rfl (by omega)
    by_cases h0 : c = 0
    · exact ⟨[], trivial, Nat.zero_le _, fun _ => h0 ▸ hc⟩
    · obtain ⟨cs, hcs, hlen, hend⟩ := ih (k + 1) (by omega) (fun a hka => h a (by omega))
      refine ⟨c :: cs, ⟨h0, hc.1, hc.2, hcs⟩, Nat.succ_le_succ hlen, fun hlt => ?_⟩
      have hend := hend (Nat.lt_of_succ_lt_succ hlt)
      rwa [Nat.add_assoc, Nat.add_comm 1] at hend

/-- Where p to p + 16 are readable, the memory holds a string at p. -/
theorem exists_holdsString {s : State} {p : Addr} (h : ∀ k, k ≤ 16 → ∃ c, holdsByte s (p.toNat + k) c) :
    ∃ cs d, holdsString s p cs d := by
  obtain ⟨cs, hcs, hlen, hend⟩ := exists_chars_of_readable 16 0 rfl (fun a _ ha => h a ha)
  obtain ⟨d, hd⟩ := h 16 le_rfl
  refine ⟨cs, d, hcs, hlen, ?_, fun _ _ => hd⟩
  simpa using hend

/-- Where a command may read all it asks for, it sends some number of characters. -/
theorem exists_sendsChars {s : State} {i : Instr} (h : admitsString s i) : ∃ k, sendsChars s k i := by
  cases i with
  | lcdStr p =>
    obtain ⟨cs, d, hstr⟩ := exists_holdsString h
    exact ⟨_, cs, d, hstr, rfl⟩
  | lcdStrAt row1 col1 p =>
    obtain ⟨cs, d, hstr⟩ := exists_holdsString h
    exact ⟨_, cs, d, hstr, rfl⟩
  | i2cOut arg => exact ⟨0, trivial⟩
  | lcdNibble x rs => exact ⟨0, trivial⟩
  | lcdChar c => exact ⟨0, trivial⟩
  | lcdCmd c => exact ⟨0, trivial⟩
  | lcdInit => exact ⟨0, trivial⟩
  | lcdGoto col row => exact ⟨0, trivial⟩
  | lcdCharAt row1 col1 c => exact ⟨0, trivial⟩

/-- Settles O57: the command is accepted and runs to the completed state, which differs from the state before in the block only. -/
theorem everyCommandCompletes : Obligations.EveryCommandCompletes := by
  intro i s hs ha hadm
  obtain ⟨k, hk⟩ := exists_sendsChars hadm
  obtain ⟨n, evs, hn, hrun, -⟩ := completesWithHolds_of_sendsChars hs ha hk
  exact ⟨_, n, _, exec_ready i hs, hn, hrun, ⟨rfl, rfl, hs.1, ha⟩, fun _ => rfl, rfl⟩

/-! ### Every command takes its holds -/

/-- With nothing on the agenda and no fault, the machine stays so. -/
theorem runSteps_quiet {n : Nat} {s u : State} (ha : s.agenda = []) (hf : s.fault = none) (h : runSteps n s = .next u) :
    u.agenda = [] ∧ u.fault = none := by
  induction n generalizing s with
  | zero =>
    cases h
    exact ⟨ha, hf⟩
  | succ n ih =>
    rw [runSteps] at h
    cases hstep : step s with
    | next t =>
      rw [hstep] at h
      obtain ⟨-, htf, -, -, hta, -⟩ := sequencerStep_next ((step_nil_agenda ha).symm.trans hstep)
      exact ih (hta.trans ha) htf h
    | fault r => rw [hstep] at h; cases h
    | refused r => rw [hstep] at h; cases h

/-- A run left alone that has reached IDLE has reached the state of every longer run. -/
theorem runSteps_of_idle {m n : Nat} {s u : State} (ha : s.agenda = []) (hf : s.fault = none) (hmn : m ≤ n)
    (h : runSteps m s = .next u) (hu : u.mode = .idle) : runSteps n s = .next u := by
  obtain ⟨hua, huf⟩ := runSteps_quiet ha hf h
  rw [← Nat.add_sub_cancel' hmn, runSteps_add h, runSteps_idle hua huf hu]

/-- Left alone, all runs that reach IDLE reach the same state. -/
theorem idle_state_unique {m n : Nat} {s u v : State} (ha : s.agenda = []) (hf : s.fault = none)
    (hm : runSteps m s = .next u) (hu : u.mode = .idle) (hn : runSteps n s = .next v) (hv : v.mode = .idle) : u = v := by
  have hu' := runSteps_of_idle ha hf (le_max_left m n) hm hu
  have hv' := runSteps_of_idle ha hf (le_max_right m n) hn hv
  exact Host.Outcome.next.inj (hu'.symm.trans hv')

/-- The timing law from the event that stands before some events to the one that stands behind them. -/
theorem timingLaw_between {τ : Timing ℝ} {xs evs : List Event} {e e' : Event} {time : Nat → ℝ}
    (h : timingLaw τ (xs ++ [e] ++ evs ++ [e']) time) :
    time xs.length + holdSum τ evs ≤ time ((xs ++ [e] ++ evs ++ [e']).length - 1) := by
  have hlen : (xs ++ [e] ++ evs ++ [e']).length - 1 = xs.length + 1 + evs.length := by simp; omega
  have hbetween : eventsBetween (xs ++ [e] ++ evs ++ [e']) xs.length (xs.length + 1 + evs.length) = evs := by
    have hcount : xs.length + 1 + evs.length - xs.length - 1 = evs.length := by omega
    have hdrop : (xs ++ [e] ++ evs ++ [e']).drop (xs.length + 1) = evs ++ [e'] := by
      rw [List.append_assoc]
      exact List.drop_left' (by simp)
    rw [eventsBetween, hdrop, hcount, List.take_left]
  have hlaw := h xs.length (xs.length + 1 + evs.length) (by omega) (by simp; omega)
  rwa [hbetween, ← hlen] at hlaw

/-- Settles O59: the run ends in the completed state, whose TRACE has the command's events between its `Cmd` and its `Done`. -/
theorem commandTakesItsHolds : Obligations.CommandTakesItsHolds := by
  intro τ i k n s t u time hs ha hk hexec hrun hidle hlaw
  obtain ⟨m, evs, -, hdone, hsum⟩ := completesWithHolds_of_sendsChars hs ha hk
  obtain rfl := Host.Outcome.next.inj ((exec_ready i hs).symm.trans hexec)
  obtain rfl : u = completed s (encode i) evs := 
    idle_state_unique (s := s.accept _ _) ha hs.1 hrun hidle hdone rfl
  refine ⟨?_, ?_, ?_, fun hτ => hsum τ ▸ holdSum_nonneg hτ evs⟩
  · simp [completed]
  · exact List.getLast?_concat
  · rw [← hsum τ]
    exact timingLaw_between hlaw

end Sys2Proof.Machine
end

section
/-! PROOFS. Commands never interleave (20_memory R59): the mode that TRACE tells follows MODE through every form of a step. -/

namespace Sys2Proof.Machine

/-- The mode a TRACE tells goes on from the events before. -/
theorem traceMode_append (xs ys : List Event) : traceMode (xs ++ ys) = ys.foldl traceStep (traceMode xs) := List.foldl_append

/-- Events that lead from the mode before to the mode after keep TRACE a sequence of whole commands. -/
theorem traceInv_of_append {s t : State} (h : traceInv s) {es : List Event} {m m' : Mode} (htrace : t.trace = s.trace ++ es)
    (hs : s.mode = m) (ht : t.mode = m') (hes : es.foldl traceStep (some m) = some m') : traceInv t := by
  rw [traceInv, htrace, traceMode_append, h, hs, hes, ht]

/-- The events of any micro-operation lie inside a command. -/
theorem foldl_traceStep_opEvents (op : MicroOp) : (opEvents op).foldl traceStep (some .busy) = some .busy := by
  cases op <;> rfl

/-- Every form of a step keeps TRACE a sequence of whole commands, one open exactly in BUSY. -/
theorem traceInv_of_blockStep {s t : State} (h : traceInv s) (hst : BlockStep s t) : traceInv t := by
  cases hst with
  | waits e => exact h
  | faults w r e hw hf hr => exact h
  | accepts w i e hw hi hs => exact traceInv_of_append h (es := [.cmd w]) rfl hs.2 rfl rfl
  | completes e ht hf hm hp => exact traceInv_of_append h (es := [.done]) rfl hm rfl rfl
  | performs op rest e ht hf hm hp hop => exact traceInv_of_append h rfl hm hm (foldl_traceStep_opEvents op)
  | endsString p i rest es e hf hm hp hes =>
    have hinside : es.foldl traceStep (some .busy) = some .busy := by rcases hes with rfl | ⟨a, c, rfl⟩ <;> rfl
    exact traceInv_of_append h rfl hm hm hinside
  | continuesString p i j rest a c e hf hm hp => exact traceInv_of_append h (es := [.read a c]) rfl hm hm rfl
  | resets e hr => rfl

/-- Settles O24: `Cmd` is added in IDLE only, `Done` and everything between in BUSY only, and MODE moves with them. -/
theorem stepKeepsCommandsApart : Obligations.StepKeepsCommandsApart :=
  fun _ _ hs h => traceInv_of_blockStep hs (blockStep_of_step h)

end Sys2Proof.Machine
end

section
/-! PROOFS. The string memory in one step (20_memory R50, R51), said once: a step keeps it, the host writes a readable byte of it,
or the launch of a run gives it. -/

namespace Sys2Proof.Machine

/-- What becomes of the string memory, by the move at the head of the agenda. -/
inductive MemStep (s : State) : Memory → Prop
  | keeps (hwrite : ∀ a v, s.agenda.head? = some (.write a v) → s.mem.read a.toNat = none)
      (hlaunch : ∀ cells, s.agenda.head? ≠ some (.launch cells)) : MemStep s s.mem
  | writes (a : Addr) (v : Byte) (ha : s.agenda.head? = some (.write a v)) (hr : s.mem.read a.toNat ≠ none) :
      MemStep s (s.mem.write a.toNat v)
  | launches (cells : List Host.Cell) (ha : s.agenda.head? = some (.launch cells)) (htrace : s.trace = [])
      (hm : s.mode = .idle) (hf : s.fault = none) : MemStep s (Memory.ofCells cells)

/-- A move that is neither a host write nor a launch keeps the string memory. -/
theorem MemStep.of_head {s : State} (hwrite : ∀ a v, s.agenda.head? ≠ some (.write a v))
    (hlaunch : ∀ cells, s.agenda.head? ≠ some (.launch cells)) : MemStep s s.mem :=
  .keeps (fun a v ha => absurd ha (hwrite a v)) hlaunch

/-- At the sequencer's turn the host neither writes memory nor launches a run. -/
theorem memStep_of_sequencerMoves {s : State} (h : sequencerMoves s) : MemStep s s.mem := by
  rcases h with ha | ha | ⟨ha, -⟩ <;> exact .of_head (by simp [ha]) (by simp [ha])

/-- A word written to CMD changes neither the string memory nor the parameters. -/
theorem issueWord_mem_params {s t : State} {w : Word} (h : issueWord w s = .next t) :
    t.mem = s.mem ∧ t.params = s.params := by
  rcases issueWord_next h with ⟨-, rfl⟩ | ⟨-, -, v, rfl, -⟩ | ⟨-, -, -, rfl⟩ | ⟨-, -, i, -, rfl⟩ <;> exact ⟨rfl, rfl⟩

/-- Every step is of one of the three forms for the string memory, and changes no parameter. -/
theorem memStep_of_step {s t : State} (h : step s = .next t) : MemStep s t.mem ∧ t.params = s.params := by
  rcases step_next h with ⟨hturn, h⟩ | ⟨rest, ha, hm, rfl⟩ | ⟨w, rest, ha, h⟩ | ⟨a, v, rest, ha, hr, rfl⟩ |
    ⟨a, v, rest, l, ha, hr, hl, rfl⟩ | ⟨rest, ha, rfl⟩ | ⟨cells, rest, ha, htrace, hm, hf, rfl⟩
  · obtain ⟨-, -, hparams, hmem, -⟩ := sequencerStep_next h
    exact ⟨hmem ▸ memStep_of_sequencerMoves hturn, hparams⟩
  · exact ⟨.of_head (by simp [ha]) (by simp [ha]), rfl⟩
  · obtain ⟨hmem, hparams⟩ := issueWord_mem_params h
    exact ⟨hmem ▸ .of_head (by simp [ha]) (by simp [ha]), hparams⟩
  · refine ⟨.keeps (fun b u hb => ?_) (by simp [ha]), rfl⟩
    obtain ⟨rfl, rfl⟩ : a = b ∧ v = u := by simpa [ha] using hb
    exact hr
  · exact ⟨.writes a v (by simp [ha]) hr, rfl⟩
  · exact ⟨.of_head (by simp [ha]) (by simp [ha]), rfl⟩
  · exact ⟨.launches cells (by simp [ha]) htrace hm hf, rfl⟩

/-- After a host write to a readable byte, that byte reads as written and every other one as before. -/
theorem MemStep.read_of_write {s : State} {m : Memory} (h : MemStep s m) {a : Addr} {v : Byte}
    (ha : s.agenda.head? = some (.write a v)) (hr : s.mem.read a.toNat ≠ none) :
    m.read a.toNat = some v ∧ ∀ b, b ≠ a.toNat → m.read b = s.mem.read b := by
  cases h with
  | keeps hwrite hlaunch => exact absurd (hwrite a v ha) hr
  | writes b u hb hread =>
    cases ha.symm.trans hb
    exact ⟨Memory.read_write_same _ _ _, fun b hb => Memory.read_write_other _ _ _ _ hb⟩
  | launches cells hl htrace hm hf => exact nomatch ha.symm.trans hl

/-- Where the next move is neither a host write to a readable byte nor a launch, the memory is as before. -/
theorem MemStep.eq_of_no_write {s : State} {m : Memory} (h : MemStep s m)
    (hwrite : ∀ a v, s.agenda.head? = some (.write a v) → s.mem.read a.toNat = none)
    (hlaunch : ∀ cells, s.agenda.head? ≠ some (.launch cells)) : m = s.mem := by
  cases h with
  | keeps => rfl
  | writes a v ha hr => exact absurd (hwrite a v ha) hr
  | launches cells ha htrace hm hf => exact absurd ha (hlaunch cells)

/-- A launch is possible before the first command only, and gives the memory of its cells. -/
theorem MemStep.of_launch {s : State} {m : Memory} (h : MemStep s m) {cells : List Host.Cell}
    (ha : s.agenda.head? = some (.launch cells)) :
    s.trace = [] ∧ s.mode = .idle ∧ s.fault = none ∧ m = Memory.ofCells cells := by
  cases h with
  | keeps hwrite hlaunch => exact absurd ha (hlaunch cells)
  | writes a v hw hr => exact nomatch ha.symm.trans hw
  | launches cells' hl htrace hm hf =>
    cases ha.symm.trans hl
    exact ⟨htrace, hm, hf, rfl⟩

/-- Only a launch changes which bytes are readable (20_memory R51). -/
theorem MemStep.readable_iff {s : State} {m : Memory} (h : MemStep s m)
    (hlaunch : ∀ cells, s.agenda.head? ≠ some (.launch cells)) (b : Nat) : m.read b = none ↔ s.mem.read b = none := by
  cases h with
  | keeps => rfl
  | writes a v ha hr => exact Memory.read_write_eq_none v hr b
  | launches cells ha htrace hm hf => exact absurd ha (hlaunch cells)

/-- Every form of a step keeps the memory's addresses strictly rising. -/
theorem MemStep.wf {s : State} {m : Memory} (h : MemStep s m) (hs : s.mem.wf = true) : m.wf = true := by
  cases h with
  | keeps => exact hs
  | writes a v ha hr => exact Memory.write_wf _ _ _ hs
  | launches cells ha htrace hm hf => exact Memory.ofCells_wf cells

/-- Settles O21: each clause reads one fact off the three forms of a step for the string memory. -/
theorem onlyTheHostWritesMemory : Obligations.OnlyTheHostWritesMemory := by
  intro s t h
  obtain ⟨hmem, hparams⟩ := memStep_of_step h
  refine ⟨hparams, fun a v rest ha hr => ?_, fun a v rest ha hr b => ?_, fun cells rest ha => ?_, fun hwrite hlaunch b => ?_,
    hmem.readable_iff⟩
  · exact hmem.read_of_write (by simp [ha]) hr
  · rw [hmem.eq_of_no_write (fun c u hc => ?_) (by simp [ha])]
    obtain ⟨rfl, rfl⟩ : a = c ∧ v = u := by simpa [ha] using hc
    exact hr
  · obtain ⟨htrace, hm, hf, hcells⟩ := hmem.of_launch (cells := cells) (by simp [ha])
    exact ⟨htrace, hm, hf, fun b => hcells ▸ Memory.read_ofCells cells b⟩
  · rw [hmem.eq_of_no_write (fun a v ha => absurd ha (hwrite a v)) hlaunch]

/-- Settles O28: a host write and a launch's cells both keep the addresses rising, and nothing else touches them. -/
theorem stepKeepsMemoryCanonical : Obligations.StepKeepsMemoryCanonical :=
  fun _ _ hs h => (memStep_of_step h).1.wf hs

end Sys2Proof.Machine
end

section
/-! PROOFS. Bytes overwritten during a string command (20_memory R60): which host writes mark an address, and the draws that later
reads of it return. -/

namespace Sys2Proof.Machine

theorem addrExists_iff (p : Params) (a : Nat) : addrExists p a = true ↔ a < 2 ^ addrWidth p := decide_eq_true_iff

/-- An overwritten byte is read as the next draw. -/
theorem State.memRead_draw {s : State} {a : Nat} (hlt : a < 2 ^ addrWidth s.params) (hr : s.mem.read a ≠ none)
    (hc : a ∈ s.clobbered) : s.memRead a = some (Config.freeByte s.draws, { s with draws := s.draws + 1 }) := by
  obtain ⟨c, hr⟩ := Option.ne_none_iff_exists'.1 hr
  simp [State.memRead, addrExists_iff, hlt, hr, hc]

/-- Settles O31: the SREAD at PEND's head reads the next draw, and ends the loop or goes on with it. -/
theorem overwrittenByteIsADraw : Obligations.OverwrittenByteIsADraw := by
  intro s p i rest hturn hf hm hp hreads hc hlt hr
  have hstep : step s = performSread p i { s with pend := rest, agenda := afterTurn s.agenda } :=
    step_perform hturn hf hm hp
  have hdraw : State.memRead { s with pend := rest, agenda := afterTurn s.agenda } (charAddr p i) =
      some (Config.freeByte s.draws, { s with pend := rest, agenda := afterTurn s.agenda, draws := s.draws + 1 }) :=
    State.memRead_draw hlt hr hc
  rw [hstep]
  rcases performSread_cases p i { s with pend := rest, agenda := afterTurn s.agenda } with
    ⟨hu, -⟩ | ⟨c, u, hu, hend, e⟩ | ⟨c, u, j, hu, hgo, hi, hj, e⟩ | ⟨hi, hpeek, -⟩
  · exact nomatch hdraw.symm.trans hu
  · cases hdraw.symm.trans hu
    exact ⟨rest, e, fun _ => rfl, fun hne hi => absurd hend (not_or.2 ⟨hne, hi.ne⟩)⟩
  · cases hdraw.symm.trans hu
    exact ⟨_, e, fun hend => absurd hend (not_or.2 ⟨hgo, hi.ne⟩), fun _ _ => ⟨j, hj, rfl⟩⟩
  · exact absurd hreads (not_or.2 ⟨hi.not_lt, ne_true_of_eq_false hpeek⟩)

theorem plain_iff_all (ops : List MicroOp) : ops.all (fun op => !isSread op) = true ↔ plain ops := by
  simp [plain]

/-- The string pointer is looked for behind line writes and holds. -/
theorem stringPointer_append {ops : List MicroOp} (hops : plain ops) (rest : List MicroOp) :
    stringPointer (ops ++ rest) = stringPointer rest := by
  induction ops with
  | nil => rfl
  | cons op ops ih =>
    have hop : isSread op = false := hops op (by simp)
    have hrest := ih (fun o ho => hops o (by simp [ho]))
    cases op with
    | sread p i => cases hop
    | wscl v => exact hrest
    | wsda v => exact hrest
    | hold d => exact hrest

/-- A pending SREAD may still read its string's bytes p to p + 16. -/
theorem mayRead_sread {ops : List MicroOp} (hops : plain ops) (p : Addr) (i : Fin 17) (a : Nat) :
    mayRead (ops ++ [.sread p i]) a = true ↔ p.toNat ≤ a ∧ a ≤ p.toNat + 16 := by
  simp [mayRead, stringPointer_append hops, stringPointer]

/-- With no SREAD pending nothing is read any more. -/
theorem mayRead_of_plain {ops : List MicroOp} (hops : plain ops) (a : Nat) : mayRead ops a = false := by
  have hnone : stringPointer ops = none := by simpa [stringPointer] using stringPointer_append hops []
  simp [mayRead, hnone]

theorem mem_markClobbered {l : List Nat} {a b : Nat} : b ∈ markClobbered l a ↔ b ∈ l ∨ b = a := by
  unfold markClobbered
  split
  · constructor
    · exact .inl
    · rintro (hb | rfl) <;> assumption
  · simp [or_comm]

/-- The marks after a host write to address a. -/
def marksAfter (s : State) (a : Nat) : List Nat := if mayRead s.pend a then markClobbered s.clobbered a else s.clobbered

/-- A host write marks an address that the command in progress may still read. -/
theorem mem_marksAfter_self {s : State} {a : Nat} (h : mayRead s.pend a = true) : a ∈ marksAfter s a := by
  rw [marksAfter, if_pos h]
  exact mem_markClobbered.2 (.inr rfl)

/-- A host write to an address that the command in progress may not read marks nothing. -/
theorem marksAfter_of_not_mayRead {s : State} {a : Nat} (h : mayRead s.pend a = false) : marksAfter s a = s.clobbered := by
  simp [marksAfter, h]

/-- A host write keeps every mark. -/
theorem mem_marksAfter_of_mem {s : State} {a b : Nat} (hb : b ∈ s.clobbered) : b ∈ marksAfter s a := by
  unfold marksAfter
  split
  · exact mem_markClobbered.2 (.inl hb)
  · exact hb

/-- A host write marks no address but its own. -/
theorem mem_or_eq_of_mem_marksAfter {s : State} {a b : Nat} (hb : b ∈ marksAfter s a) : b ∈ s.clobbered ∨ b = a := by
  unfold marksAfter at hb
  split at hb
  · exact mem_markClobbered.1 hb
  · exact .inl hb

theorem step_write {s : State} {a : Addr} {v : Byte} {rest : List Move} (h : s.agenda = .write a v :: rest) :
    step s = hostWrite a v { s with agenda := rest } := by
  simp [step, h, takeMove]

theorem hostWrite_outside {a : Addr} (v : Byte) {s : State} (h : 2 ^ addrWidth s.params ≤ a.toNat) :
    hostWrite a v s = .fault (.writeOutside a.toNat) := by
  simp [hostWrite, addrExists_iff, Nat.not_lt.2 h]

theorem hostWrite_unreadable {a : Addr} (v : Byte) {s : State} (hlt : a.toNat < 2 ^ addrWidth s.params)
    (hr : s.mem.read a.toNat = none) : hostWrite a v s = .next s := by
  simp [hostWrite, addrExists_iff, hlt, hr]

theorem hostWrite_readable {a : Addr} (v : Byte) {s : State} (hlt : a.toNat < 2 ^ addrWidth s.params)
    (hr : s.mem.read a.toNat ≠ none) :
    hostWrite a v s = .next { s with mem := s.mem.write a.toNat v, clobbered := marksAfter s a.toNat } := by
  obtain ⟨c, hr⟩ := Option.ne_none_iff_exists'.1 hr
  simp [hostWrite, addrExists_iff, hlt, hr, marksAfter]

/-- Settles O32: the three outcomes of a host write, and of a write to a readable byte the marks it leaves. -/
theorem hostWriteMarksStringBytes : Obligations.HostWriteMarksStringBytes := by
  intro s a v rest ha
  rw [step_write ha]
  refine ⟨fun hge => hostWrite_outside v hge, fun hlt hr => hostWrite_unreadable v hlt hr, fun hlt hr => ?_⟩
  refine ⟨_, hostWrite_readable v hlt hr, Memory.read_write_same _ _ _, rfl, rfl, fun b => mem_marksAfter_of_mem,
    fun b => mem_or_eq_of_mem_marksAfter, fun ops p i hp hops => ?_, fun hpend => ?_⟩
  · have hmay : mayRead s.pend a.toNat = true ↔ p.toNat ≤ a.toNat ∧ a.toNat ≤ p.toNat + 16 := by
      rw [hp, mayRead_sread ((plain_iff_all ops).1 hops)]
    exact ⟨fun hin => mem_marksAfter_self (hmay.2 hin),
      fun hout => marksAfter_of_not_mayRead (Bool.eq_false_iff.2 (mt hmay.1 hout))⟩
  · exact marksAfter_of_not_mayRead (mayRead_of_plain ((plain_iff_all s.pend).1 hpend) _)

end Sys2Proof.Machine
end

section
/-! PROOFS. The decoder, said once (30_encoding R70 to R75): which row it follows, when it follows none, and what the fields of a
selected word look like. -/

namespace Sys2Proof

/-! ### The rows of the opcode map (R72) -/

theorem Opcode.mem_all (o : Opcode) : o ∈ Opcode.all := by cases o <;> decide

/-- Two rows differ in their OP. -/
theorem Opcode.code_injective {o o' : Opcode} (h : o.code = o'.code) : o = o' := by
  revert h
  cases o <;> cases o' <;> decide

/-- The match value of a row fixes OP, so no two rows select one word. -/
theorem Opcode.eq_of_selects {o o' : Opcode} {w : Word} (h : w &&& o.mask = o.pattern) (h' : w &&& o'.mask = o'.pattern) :
    o = o' :=
  Opcode.code_injective (((selects_iff o w).1 h).1.symm.trans ((selects_iff o' w).1 h').1)

theorem Opcode.selects_eq_true_iff (o : Opcode) (w : Word) : o.selects w = true ↔ w &&& o.mask = o.pattern := by
  simp [Opcode.selects]

/-! ### `decode` by the row that selects the word, or by there being none (R73) -/

theorem decode_of_selects {o : Opcode} {w : Word} (h : w &&& o.mask = o.pattern) :
    decode w = .ok (o.operands (fieldsOf w)) := by
  unfold decode
  split
  case h_1 o' ho' =>
    have hsel : o'.selects w = true := by simpa using List.find?_some ho'
    rw [Opcode.eq_of_selects ((o'.selects_eq_true_iff w).1 hsel) h]
  case h_2 hnone =>
    exact absurd ((o.selects_eq_true_iff w).2 h) (List.find?_eq_none.1 hnone o o.mem_all)

theorem decode_of_unselected {w : Word} (h : ∀ o : Opcode, w &&& o.mask ≠ o.pattern) :
    decode w = .error (fieldsOf w).illegal := by
  have hnone : Opcode.all.find? (fun o => o.selects w) = none :=
    List.find?_eq_none.2 fun o _ hsel => h o ((o.selects_eq_true_iff w).1 hsel)
  simp [decode, hnone]

theorem decode_eq_error_iff (w : Word) : (∃ r, decode w = .error r) ↔ ∀ o : Opcode, w &&& o.mask ≠ o.pattern := by
  constructor
  · rintro ⟨r, hr⟩ o hsel
    rw [decode_of_selects hsel] at hr
    cases hr
  · exact fun h => ⟨_, decode_of_unselected h⟩

/-! ### A command's word and its own row (R71, R72) -/

/-- The word of a command is selected by the command's own row. -/
theorem encode_and_mask (i : Instr) : encode i &&& i.opcode.mask = i.opcode.pattern :=
  match i with
  | .i2cOut arg => Laws.OwnRow.i2cOut arg
  | .lcdNibble x rs => Laws.OwnRow.lcdNibble x rs
  | .lcdChar c => Laws.OwnRow.lcdChar c
  | .lcdCmd c => Laws.OwnRow.lcdCmd c
  | .lcdInit => Laws.OwnRow.lcdInit
  | .lcdStr p => Laws.OwnRow.lcdStr p
  | .lcdGoto col row => Laws.OwnRow.lcdGoto col row
  | .lcdStrAt row1 col1 p => Laws.OwnRow.lcdStrAt row1 col1 p
  | .lcdCharAt row1 col1 c => Laws.OwnRow.lcdCharAt row1 col1 c

/-- The byte operand read back from the ARG field a byte was widened to. -/
@[simp] theorem argByte_setWidth (c : Byte) : argByte (c.setWidth 32) = c := by
  apply BitVec.eq_of_getLsbD_eq
  intro k hk
  simp only [argByte, BitVec.getLsbD_extractLsb', BitVec.getLsbD_setWidth]
  simp [hk, show k < 32 by omega]

/-- The row of a command reads the command's operands back from its fields. -/
theorem Instr.operands_fields (i : Instr) : i.opcode.operands i.fields = i := by
  cases i <;> simp [Instr.opcode, Instr.fields, Opcode.operands]

/-- Settles O4: the command's own row selects its word, and the operands of that row are the command's. -/
theorem decodeOfEncode : Obligations.DecodeOfEncode := by
  intro i
  have hfields : fieldsOf (encode i) = i.fields := fieldsOf_toWord i.fields
  rw [decode_of_selects (encode_and_mask i), hfields, i.operands_fields]

/-- Settles O2: a selected word is decoded by its row, an unselected one is illegal, and two rows never select one word. -/
theorem decodeFollowsUniqueRow : Obligations.DecodeFollowsUniqueRow :=
  fun w => ⟨fun _ => decode_of_selects, (decode_eq_error_iff w).2, fun _ _ => Opcode.eq_of_selects⟩

/-- Settles O5: the selecting row's operands give the word's fields back. -/
theorem encodeOfDecode : Obligations.EncodeOfDecode := fun _ _ => encode_of_decode

end Sys2Proof
end

section
/-! PROOFS. The masks of 30_encoding R72 against the field table of R70: under the OP of a row, each check of
`Fields.wellFormed` says that the field is 0 where the row's mask has a 1. -/

namespace Sys2Proof

theorem Fields.opAssigned_iff (f : Fields) : f.opAssigned = true ↔ ∃ o : Opcode, f.op = o.code := by
  have hcode : ∀ op : BitVec 8, (1 ≤ op.toNat && op.toNat ≤ 9) = true ↔ ∃ o ∈ Opcode.all, op = o.code := by decide
  simpa [Fields.opAssigned, Opcode.mem_all] using hcode f.op

/-- The bits of ARG above the byte are 0 exactly when ARG is a byte. -/
theorem and_high_eq_zero_iff (arg : BitVec 32) : arg &&& 0xFFFFFF00 = 0 ↔ arg.toNat < 256 := by
  constructor
  · intro h
    have hlt := (argByte arg).isLt
    rw [← setWidth_argByte h, BitVec.toNat_setWidth]
    omega
  · intro h
    have hbyte : (arg.setWidth 8).setWidth 32 = arg := by
      apply BitVec.eq_of_toNat_eq
      simp only [BitVec.toNat_setWidth]
      omega
    rw [← hbyte]
    exact Laws.OwnRow.byte_and_high _

section
variable {o : Opcode} {f : Fields} (h : f.op = o.code)
include h

theorem Fields.rsOk_iff : f.rsOk = true ↔ f.rs &&& o.maskFields.rs = 0 := by
  have hones : ∀ x : BitVec 1, x &&& 1#1 = x := fun x => BitVec.and_allOnes
  cases o <;> simp [Fields.rsOk, h, Opcode.code, Opcode.maskFields, hones]

theorem Fields.coordOk_iff :
    f.coordOk = true ↔ f.row &&& o.maskFields.row = 0 ∧ f.col &&& o.maskFields.col = 0 := by
  have hones : ∀ x : BitVec 8, x &&& 0xFF#8 = x := fun x => BitVec.and_allOnes
  cases o <;> simp [Fields.coordOk, h, Opcode.code, Opcode.maskFields, hones]

theorem Fields.argOk_iff : f.argOk = true ↔ f.arg &&& o.maskFields.arg = 0 := by
  have hones : ∀ x : BitVec 32, x &&& 0xFFFFFFFF#32 = x := fun x => BitVec.and_allOnes
  have hhigh : f.arg &&& 0xFFFFFF00#32 = 0#32 ↔ f.arg.toNat < 256 := and_high_eq_zero_iff f.arg
  cases o <;> simp [Fields.argOk, h, Opcode.code, Opcode.maskFields, hones, hhigh]

end

/-- The field-by-field check passes exactly when some row selects the word. -/
theorem wellFormed_iff_selected (w : Word) :
    (fieldsOf w).wellFormed = true ↔ ∃ o : Opcode, w &&& o.mask = o.pattern := by
  simp only [Fields.wellFormed, Bool.and_eq_true, Fields.opAssigned_iff, selects_iff]
  constructor
  · rintro ⟨⟨⟨⟨⟨o, hop⟩, hr0⟩, hrs⟩, hcoord⟩, harg⟩
    obtain ⟨hrow, hcol⟩ := (Fields.coordOk_iff hop).1 hcoord
    exact ⟨o, hop, by simpa [Fields.r0Ok] using hr0, (Fields.rsOk_iff hop).1 hrs, hrow, hcol, (Fields.argOk_iff hop).1 harg⟩
  · rintro ⟨o, hop, hr0, hrs, hrow, hcol, harg⟩
    exact ⟨⟨⟨⟨⟨o, hop⟩, by simp [Fields.r0Ok, hr0]⟩, (Fields.rsOk_iff hop).2 hrs⟩, (Fields.coordOk_iff hop).2 ⟨hrow, hcol⟩⟩,
      (Fields.argOk_iff hop).2 harg⟩

/-- Settles O3: both sides say that no row selects the word. -/
theorem illegalExactlyWhenFieldsSaySo : Obligations.IllegalExactlyWhenFieldsSaySo := by
  intro w
  rw [decode_eq_error_iff, ← Bool.not_eq_true, wellFormed_iff_selected, not_exists]

end Sys2Proof
end

section
/-! PROOFS. I2C_OUT's don't-care bits (30_encoding R75), words written out from the spec (95_test_vectors L2.0), and the
pseudo-instructions of the text form (R79). -/

namespace Sys2Proof.Machine

/-- Bits read from a run of a word's bits are bits of the word. -/
theorem extractLsb'_extractLsb' (w : Word) {start len start' len' : Nat} (h : start' + len' ≤ len) :
    (w.extractLsb' start len).extractLsb' start' len' = w.extractLsb' (start + start') len' := by
  apply BitVec.eq_of_getLsbD_eq
  intro k hk
  simp only [BitVec.getLsbD_extractLsb', hk, show start' + k < len by omega, decide_true, Bool.true_and, Nat.add_assoc]

/-- The word of I2C_OUT is OP 0x01 and zeros in its upper half, and the whole of ARG, bits [31:8] included, in its lower half. -/
theorem eq_encode_i2cOut {w : Word} (h : w.extractLsb' 32 32 = 0x01000000) :
    w = encode (.i2cOut (w.extractLsb' 0 32)) := by
  have hupper : ∀ start len, start + len ≤ 32 →
      w.extractLsb' (32 + start) len = (0x01000000 : BitVec 32).extractLsb' start len :=
    fun start len hle => by rw [← h, extractLsb'_extractLsb' w hle]
  have hfields : fieldsOf w = (Instr.i2cOut (w.extractLsb' 0 32)).fields :=
    (Fields.mk.injEq ..).mpr ⟨hupper 24 8 (by decide), hupper 17 7 (by decide), hupper 16 1 (by decide), hupper 8 8 (by decide),
      hupper 0 8 (by decide), rfl⟩
  rw [encode, ← hfields, toWord_fieldsOf]

/-- Settles O6: the word is I2C_OUT's own word with its ARG, and the frame takes the byte operand of that ARG. -/
theorem i2cOutIgnoresHighBits : Obligations.I2cOutIgnoresHighBits := by
  intro w hw
  refine ⟨(congrArg decode (eq_encode_i2cOut hw)).trans (decodeOfEncode _), fun p => ?_⟩
  rw [expand, argByte, extractLsb'_extractLsb' w (by decide)]

/-- Settles O1: each word is a closed term that the decoder evaluates. -/
theorem specWordsDecode : Obligations.SpecWordsDecode := by
  unfold Obligations.SpecWordsDecode
  decide

/-- A line of text that is one name is the command of that name without operands. -/
theorem assembleInstr_of_lexText {text m : List Char} (h : lexText [] text = some [.word m]) (p : Params) :
    assembleInstr p text = assembleTokens p m [] := by
  simp [assembleInstr, h]

/-- Settles O7: each text is one name, and its arm of the assembler takes no operand. -/
theorem pseudoInstructionsAreCommandWrites : Obligations.PseudoInstructionsAreCommandWrites := by
  intro p
  have hclear : lexText [] "lcd.clear".toList = some [.word "lcd.clear".toList] := by decide
  have hhome : lexText [] "lcd.home".toList = some [.word "lcd.home".toList] := by decide
  rw [assembleInstr_of_lexText hclear, assembleInstr_of_lexText hhome]
  exact ⟨rfl, rfl⟩

end Sys2Proof.Machine
end

section
/-! PROOFS. What a command without an SREAD does from IDLE when it is left alone (10_state R34, R35), and I2C_OUT as its first case
(40_transport R103). -/

namespace Sys2Proof.Machine

/-- A command whose accepted operations run to the completed state is accepted with its expansion and completes. -/
theorem runsTo_of_runSteps {i : Instr} {s : State} (hs : ready s) {n : Nat} {evs : List Event}
    (hrun : runSteps n (s.accept (encode i) (expand s.params i)) = .next (completed s (encode i) evs)) :
    runsTo i s (expand s.params i) evs :=
  ⟨_, n, exec_ready i hs, rfl, hrun⟩

/-- A command without an SREAD performs the events of its expansion. -/
theorem runsTo_of_plain {i : Instr} {s : State} (hs : ready s) (ha : s.agenda = []) (hops : plain (expand s.params i)) :
    runsTo i s (expand s.params i) (opsEvents (expand s.params i)) :=
  runsTo_of_runSteps hs (accepted_plain_runs hs ha _ hops)

/-- A frame ends in its stop, so it leaves bus idle (40_transport R107). -/
theorem linesAfterAll_frame (b : Byte) (ls : Lines) : linesAfterAll ls (opsEvents (frame b)) = bothHigh := by
  rw [frame, opsEvents_append, linesAfterAll_append, linesAfterAll_stopOps]

/-- Settles O33: the expansion is one frame, which has no SREAD and ends in its stop. -/
theorem i2cOutSendsOneFrame : Obligations.I2cOutSendsOneFrame :=
  fun arg _ hs ha => ⟨runsTo_of_plain (i := .i2cOut arg) hs ha (frame_plain _), linesAfterAll_frame _ _⟩

end Sys2Proof.Machine
end

section
/-! PROOFS. The counts and the holds of a frame, part by part (40_transport R102, R105; 70_reset_and_hazards R236). -/

namespace Sys2Proof.Machine

/-- Every line write and every hold is one event. -/
theorem length_opsEvents {ops : List MicroOp} (hops : plain ops) : (opsEvents ops).length = ops.length := by
  induction ops with
  | nil => rfl
  | cons op ops ih =>
    have hop : (opEvents op).length = 1 := by
      cases op with
      | sread p i => exact absurd (hops _ (List.mem_cons_self ..)) (by simp [isSread])
      | wscl v => rfl
      | wsda v => rfl
      | hold d => rfl
    rw [opsEvents_cons, List.length_append, hop, ih fun o ho => hops o (List.mem_cons_of_mem _ ho), List.length_cons,
      Nat.add_comm]

/-- Where every bit sent has one count, bits have that count each. -/
theorem countP_bits {p : Event → Bool} {n k : Nat} (hbit : ∀ v, (opsEvents (bitOps n v)).countP p = k) (bits : List Bool) :
    (opsEvents (bits.flatMap (bitOps n))).countP p = bits.length * k := by
  induction bits with
  | nil => simp
  | cons v bits ih =>
    rw [List.flatMap_cons, opsEvents_append, List.countP_append, hbit, ih, List.length_cons, Nat.succ_mul, Nat.add_comm]

/-- A frame counts its start, 16 bits, four acknowledge-shaped pulses and its stop. -/
theorem countP_frame {p : Event → Bool} {k : Nat} (hbit : ∀ n v, (opsEvents (bitOps n v)).countP p = k) (b : Byte) :
    (opsEvents (frame b)).countP p =
      (opsEvents startOps).countP p + 16 * k + 4 * (opsEvents ackp).countP p + (opsEvents stopOps).countP p := by
  simp only [frame, opsEvents_append, List.countP_append, countP_bits (hbit _), addrSeq, payloadBits, List.length_map,
    List.length_cons, List.length_nil]
  omega

/-- Settles O34: each count of a frame is the sum of its parts' counts, in which the payload does not show. -/
theorem frameCounts : Obligations.FrameCounts := by
  intro b
  have hline : ∀ n v, (opsEvents (bitOps n v)).countP isLineEvent = 3 := fun _ _ => rfl
  have hhold : ∀ n v, (opsEvents (bitOps n v)).countP isHoldEvent = 3 := fun _ _ => rfl
  have hscl : ∀ n v, (opsEvents (bitOps n v)).countP (fun e => e == .line .scl true || e == .line .scl false) = 2 := by
    intro n v
    cases v <;> rfl
  have hsda : ∀ n v, (opsEvents (bitOps n v)).countP (fun e => e == .line .sda true || e == .line .sda false) = 1 := by
    intro n v
    cases v <;> rfl
  have hhigh : ∀ n v, (opsEvents (bitOps n v)).countP (fun e => e == .line .scl true) = 1 := by
    intro n v
    cases v <;> rfl
  exact ⟨length_frame b, countP_frame hline b, countP_frame hhold b, countP_frame hscl b,
    countP_frame hsda b, countP_frame hhigh b, ⟨rfl, rfl⟩, ⟨rfl, rfl⟩, ⟨rfl, rfl⟩,
    ⟨rfl, countP_bits (hline 50) (payloadBits b)⟩, rfl, rfl⟩

/-- The holds of bits: three of their unit count each. -/
theorem holds_bits (n : Nat) (bits : List Bool) :
    (opsEvents (bits.flatMap (bitOps n))).filter isHoldEvent =
      List.replicate (3 * bits.length) (.hold (.units n .transport)) := by
  induction bits with
  | nil => rfl
  | cons v bits ih =>
    rw [List.flatMap_cons, opsEvents_append, List.filter_append, ih, List.length_cons, Nat.mul_succ, Nat.add_comm,
      List.replicate_add]
    rfl

/-- Settles O35: the holds of the parts in their order. -/
theorem frameHolds : Obligations.FrameHolds := by
  intro b
  simp only [frame, opsEvents_append, List.filter_append, holds_bits]
  rfl

end Sys2Proof.Machine
end

section
/-! PROOFS. The wires of a frame: a frame is the start's edge, a clocked part under which SDA changes only while SCL is LOW, and
the stop's edge (40_transport R106). -/

namespace Sys2Proof.Machine

/-- Every write of SDA finds SCL LOW, from given levels on. -/
def sdaUnderLow (ls : Lines) : List Event → Prop
  | [] => True
  | e :: es => ((∃ v, e = .line .sda v) → ls.scl = .low) ∧ sdaUnderLow (linesAfter ls e) es

theorem sdaUnderLow_append {xs ys : List Event} {ls : Lines} (hx : sdaUnderLow ls xs)
    (hy : sdaUnderLow (linesAfterAll ls xs) ys) : sdaUnderLow ls (xs ++ ys) := by
  induction xs generalizing ls with
  | nil => exact hy
  | cons e xs ih => exact ⟨hx.1, ih hx.2 hy⟩

/-- The level of SCL that a write of SDA finds. -/
theorem scl_low_of_sdaUnderLow {es : List Event} {ls : Lines} (h : sdaUnderLow ls es) {k : Nat} {v : Bool}
    (hk : es[k]? = some (.line .sda v)) : (linesAfterAll ls (es.take k)).scl = .low := by
  induction es generalizing ls k with
  | nil => simp at hk
  | cons e es ih =>
    cases k with
    | zero => exact h.1 ⟨v, by simpa using hk⟩
    | succ k => exact ih h.2 (by simpa using hk)

/-- The same of a write of SDA that stands in the middle one of three parts. -/
theorem scl_low_of_sdaUnderLow_middle {xs ys zs : List Event} {ls : Lines} (h : sdaUnderLow (linesAfterAll ls xs) ys)
    {k : Nat} {v : Bool} (hlo : xs.length ≤ k) (hhi : k < (xs ++ ys).length)
    (hk : (xs ++ ys ++ zs)[k]? = some (.line .sda v)) : (linesAfterAll ls ((xs ++ ys ++ zs).take k)).scl = .low := by
  rw [List.getElem?_append_left hhi, List.getElem?_append_right hlo] at hk
  rw [List.take_append_of_le_length hhi.le, List.take_append, List.take_of_length_le hlo, linesAfterAll_append]
  exact scl_low_of_sdaUnderLow h hk

/-- From a LOW clock on, whatever SDA was, the operations clock the bits: each is one sample and nothing else shows on the wires,
SDA changes only under a LOW clock, and the clock is LOW at the end. -/
structure ClocksBits (ops : List MicroOp) (bits : List Bool) : Prop where
  wires : ∀ d, wires { scl := .low, sda := d } (opsEvents ops) = bits.map (fun v => .sample (levelOf v))
  low : ∀ d, ∃ d', linesAfterAll { scl := .low, sda := d } (opsEvents ops) = { scl := .low, sda := d' }
  sda : ∀ d, sdaUnderLow { scl := .low, sda := d } (opsEvents ops)

theorem clocksBits_nil : ClocksBits [] [] := ⟨fun _ => rfl, fun d => ⟨d, rfl⟩, fun _ => trivial⟩

theorem clocksBits_append {xs ys : List MicroOp} {as bs : List Bool} (hx : ClocksBits xs as) (hy : ClocksBits ys bs) :
    ClocksBits (xs ++ ys) (as ++ bs) := by
  constructor <;> intro d <;> obtain ⟨d', hd⟩ := hx.low d <;> rw [opsEvents_append]
  · rw [wires_append, hd, hx.wires, hy.wires, List.map_append]
  · rw [linesAfterAll_append, hd]
    exact hy.low d'
  · exact sdaUnderLow_append (hx.sda d) (hd ▸ hy.sda d')

theorem clocksBits_bitOps (n : Nat) (v : Bool) : ClocksBits (bitOps n v) [v] where
  wires d := (bitOps_wires n v d).1
  low d := ⟨_, (bitOps_wires n v d).2⟩
  sda d := by simp [bitOps, opEvents, sdaUnderLow]

theorem clocksBits_bits (n : Nat) (bits : List Bool) : ClocksBits (bits.flatMap (bitOps n)) bits := by
  induction bits with
  | nil => exact clocksBits_nil
  | cons v bits ih => exact clocksBits_append (clocksBits_bitOps n v) ih

theorem clocksBits_ackp : ClocksBits ackp [false] where
  wires d := (ackp_wires d).1
  low d := ⟨_, (ackp_wires d).2⟩
  sda d := by simp [ackp, opEvents, sdaUnderLow]

/-- The start up to the falling edge of SDA (40_transport R102 step 1). -/
def startFall : List MicroOp := [.wscl true, .wsda true, .hold (.named .start1), .wsda false]

/-- The pulses of a frame between its start and its stop (40_transport R102 steps 2 to 6a). -/
def framePulses (b : Byte) : List MicroOp :=
  addrSeq.flatMap (bitOps 1) ++ ackp ++ (payloadBits b).flatMap (bitOps 50) ++ ackp ++ (ackp ++ ackp)

/-- The stop up to the rising edge of SCL (40_transport R102 step 6b). -/
def stopRaise : List MicroOp := [.wsda false, .hold (.named .stopSu), .wscl true, .hold (.named .stopHi)]

/-- The operations between the start's falling edge and the stop's rising edge of SDA. -/
def frameBody (b : Byte) : List MicroOp := [MicroOp.hold (.named .start2), .wscl false] ++ framePulses b ++ stopRaise

/-- The stop's rising edge of SDA, and the hold after it. -/
def stopEdge : List MicroOp := [.wsda true, .hold (.named .stopEnd)]

theorem frame_eq_edges (b : Byte) : frame b = startFall ++ frameBody b ++ stopEdge := by
  simp only [frame, startOps, stopOps, startFall, frameBody, framePulses, stopRaise, stopEdge, List.append_assoc,
    List.cons_append, List.nil_append]

/-- The 20 bits of a frame's pulses: the address, 0, the payload from bit 7 down, 0, 0 0 (40_transport R100, R102). -/
def pulseBits (b : Byte) : List Bool := addrSeq ++ [false] ++ payloadBits b ++ [false] ++ ([false] ++ [false])

theorem clocksBits_framePulses (b : Byte) : ClocksBits (framePulses b) (pulseBits b) :=
  clocksBits_append (clocksBits_append (clocksBits_append (clocksBits_append (clocksBits_bits 1 _) clocksBits_ackp)
    (clocksBits_bits 50 _)) clocksBits_ackp) (clocksBits_append clocksBits_ackp clocksBits_ackp)

theorem linesAfterAll_startFall (ls : Lines) : linesAfterAll ls (opsEvents startFall) = { scl := .high, sda := .low } := rfl

theorem linesAfterAll_frameBody (b : Byte) (ls : Lines) :
    linesAfterAll ls (opsEvents (frameBody b)) = { scl := .high, sda := .low } := by
  rw [frameBody, opsEvents_append, linesAfterAll_append]
  rfl

/-- The stop's rising edge of SDA finds SCL HIGH and SDA LOW. -/
theorem linesAfterAll_startFall_frameBody (b : Byte) (ls : Lines) :
    linesAfterAll ls (opsEvents (startFall ++ frameBody b)) = { scl := .high, sda := .low } := by
  rw [opsEvents_append, linesAfterAll_append, linesAfterAll_frameBody]

/-- Between its edges a frame shows one sample for each pulse and one at the stop, and SDA changes only under a LOW clock. -/
theorem frameBody_wires (b : Byte) :
    wires { scl := .high, sda := .low } (opsEvents (frameBody b)) =
      (pulseBits b ++ [false]).map (fun v => .sample (levelOf v)) ∧
    sdaUnderLow { scl := .high, sda := .low } (opsEvents (frameBody b)) := by
  have hpulses := clocksBits_framePulses b
  obtain ⟨d, hd⟩ := hpulses.low .low
  have hclock : linesAfterAll { scl := .high, sda := .low } (opsEvents [.hold (.named .start2), .wscl false]) =
      { scl := .low, sda := .low } := rfl
  rw [frameBody, opsEvents_append, opsEvents_append]
  constructor
  · rw [wires_append, wires_append, linesAfterAll_append, hclock, hd, hpulses.wires, List.map_append]
    cases d <;> rfl
  · refine sdaUnderLow_append (sdaUnderLow_append ?_ (hpulses.sda .low)) ?_
    · simp [opEvents, sdaUnderLow]
    · rw [linesAfterAll_append, hclock, hd]
      simp [stopRaise, opEvents, sdaUnderLow]

theorem opsEvents_frame (b : Byte) :
    opsEvents (frame b) = opsEvents startFall ++ opsEvents (frameBody b) ++ opsEvents stopEdge := by
  rw [frame_eq_edges, opsEvents_append, opsEvents_append]

/-- The stop's rising edge of SDA is event 130. -/
theorem length_startFall_frameBody (b : Byte) : (opsEvents startFall ++ opsEvents (frameBody b)).length = 130 := by
  have hlen := length_opsEvents (frame_plain b)
  rw [length_frame, opsEvents_frame, List.length_append] at hlen
  exact Nat.add_right_cancel hlen

theorem take_frame (b : Byte) : (opsEvents (frame b)).take 130 = opsEvents startFall ++ opsEvents (frameBody b) := by
  rw [opsEvents_frame, List.take_left' (length_startFall_frameBody b)]

theorem drop_frame (b : Byte) : (opsEvents (frame b)).drop 130 = opsEvents stopEdge := by
  rw [opsEvents_frame, List.drop_left' (length_startFall_frameBody b)]

/-- Settles O36: the start's falling and the stop's rising edge stand around the body, in which SDA changes only under LOW. -/
theorem frameLineDiscipline : Obligations.FrameLineDiscipline := by
  intro b ls
  have hlen := length_startFall_frameBody b
  refine ⟨rfl, ?_, rfl, ?_, fun k v hlo hhi hk => ?_⟩
  · rw [opsEvents_frame, List.getElem?_append_right hlen.le, hlen]
    rfl
  · rw [take_frame, ← opsEvents_append, linesAfterAll_startFall_frameBody]
  · rw [opsEvents_frame] at hk ⊢
    exact scl_low_of_sdaUnderLow_middle (xs := opsEvents startFall) (frameBody_wires b).2 hlo (hlen ▸ hhi) hk

end Sys2Proof.Machine
end

section
/-! PROOFS. A frame decodes to its payload (40_transport R109): its wire events are a START, 21 samples and a STOP, after what the
lines' prior levels show. -/

namespace Sys2Proof.Machine

/-- The 21 bits sampled in a frame (40_transport R109). -/
def frameBits (b : Byte) : List Bool := pulseBits b ++ [false]

/-- What raising both lines before a START shows on the wires, by the levels before. -/
def leadWires (ls : Lines) : List Wire :=
  (if ls.scl = .low then [Wire.sample ls.sda] else []) ++ (if ls.sda = .low then [Wire.stop] else [])

theorem wires_startFall (ls : Lines) : wires ls (opsEvents startFall) = leadWires ls ++ [.start] := by
  obtain ⟨scl, sda⟩ := ls
  cases scl <;> cases sda <;> rfl

theorem wires_frame (b : Byte) (ls : Lines) :
    wires ls (opsEvents (frame b)) =
      leadWires ls ++ Wire.start :: ((frameBits b).map levelOf).map Wire.sample ++ [Wire.stop] := by
  rw [opsEvents_frame, wires_append, wires_append, ← opsEvents_append, linesAfterAll_startFall_frameBody, wires_startFall,
    linesAfterAll_startFall, (frameBody_wires b).1, List.map_map, List.append_assoc (leadWires ls)]
  rfl

/-- Samples up to a STOP are what a START before them decodes. -/
theorem samplesToStop_samples (vs : List Level) (ws : List Wire) :
    samplesToStop (vs.map Wire.sample ++ Wire.stop :: ws) = some vs := by
  induction vs with
  | nil => rfl
  | cons v vs ih => simp [samplesToStop, ih]

/-- Samples open no frame. -/
theorem decodedFrames_samples (vs : List Level) (ws : List Wire) :
    decodedFrames (vs.map Wire.sample ++ ws) = decodedFrames ws := by
  induction vs with
  | nil => rfl
  | cons v vs ih => exact ih

/-- What stands before a START opens no frame. -/
theorem decodedFrames_leadWires (ls : Lines) (ws : List Wire) : decodedFrames (leadWires ls ++ ws) = decodedFrames ws := by
  unfold leadWires
  split_ifs <;> rfl

/-- Raising both lines is a STOP where SDA was LOW, and never a START. -/
theorem count_leadWires (ls : Lines) :
    (leadWires ls).count .start = 0 ∧ (leadWires ls).count .stop = if ls.sda = .low then 1 else 0 := by
  unfold leadWires
  split_ifs <;> exact ⟨rfl, rfl⟩

theorem count_samples {w : Wire} (hw : ∀ v, w ≠ .sample v) (vs : List Level) : (vs.map Wire.sample).count w = 0 :=
  List.count_eq_zero.2 fun hmem => by
    obtain ⟨v, -, rfl⟩ := List.mem_map.1 hmem
    exact hw v rfl

/-- A frame before any wire events is one decoded frame before theirs. -/
theorem decodedFrames_frame_append (b : Byte) (ls : Lines) (ws : List Wire) :
    decodedFrames (wires ls (opsEvents (frame b)) ++ ws) = (frameBits b).map levelOf :: decodedFrames ws := by
  rw [wires_frame, List.append_assoc, List.append_assoc, decodedFrames_leadWires, List.cons_append, List.singleton_append,
    decodedFrames, samplesToStop_samples, decodedFrames_samples, decodedFrames]
  rfl

/-- One more bit behind the bits of b from bit 7 down to bit i + 1. -/
theorem ushiftRight_succ_shiftLeft_or (b : Byte) (i : Nat) :
    ((b >>> (i + 1)) <<< 1) ||| (if b.getLsbD i then 1 else 0) = b >>> i := by
  apply BitVec.eq_of_getLsbD_eq
  intro k hk
  cases k with
  | zero => cases hb : b.getLsbD i <;> simp [hb]
  | succ k => cases b.getLsbD i <;> simp [hk, show i + 1 + k = i + (k + 1) by omega]

/-- The bits of a byte from bit 7 down read back as the byte. -/
theorem byteOfBits_payloadBits (b : Byte) : byteOfBits (payloadBits b) = b := by
  have hfirst : (0 : Byte) <<< 1 ||| (if b.getLsbD 7 then (1 : Byte) else 0) = b >>> 7 := by
    rw [← ushiftRight_succ_shiftLeft_or b 7, BitVec.ushiftRight_eq_zero (by decide)]
    rfl
  simp only [byteOfBits, payloadBits, List.map_cons, List.map_nil, List.foldl_cons, List.foldl_nil]
  simp only [hfirst, ushiftRight_succ_shiftLeft_or, BitVec.ushiftRight_zero]

theorem mapM_levelBit_levelOf (bits : List Bool) : (bits.map levelOf).mapM levelBit = some bits := by
  induction bits with
  | nil => rfl
  | cons v bits ih => cases v <;> simp [levelOf, levelBit, ih]

/-- The samples of a frame are well formed and carry its payload. -/
theorem framePayload_frameBits (b : Byte) : framePayload ((frameBits b).map levelOf) = some b := by
  rw [framePayload, mapM_levelBit_levelOf]
  exact (if_pos ⟨rfl, rfl, rfl, rfl⟩).trans (congrArg some (byteOfBits_payloadBits b))

/-- Settles O37: the wires are one START, 21 samples and a STOP, and before them a STOP exactly when SDA was LOW. -/
theorem frameDecodesToItsPayload : Obligations.FrameDecodesToItsPayload := by
  intro b ls
  have hframes := decodedFrames_frame_append b ls []
  rw [List.append_nil] at hframes
  refine ⟨?_, ?_, ⟨_, hframes, rfl, rfl, framePayload_frameBits b⟩, ?_, ?_⟩
  · rw [wires_frame, List.count_append, List.count_append, (count_leadWires ls).1, List.count_cons_self,
      count_samples (by simp)]
    rfl
  · rw [wires_frame, List.count_append, List.count_append, (count_leadWires ls).2, List.count_cons_of_ne (by decide),
      count_samples (by simp)]
    split_ifs <;> rfl
  · rw [wires_frame, List.getLast?_concat]
  · rw [take_frame, drop_frame, ← opsEvents_append, linesAfterAll_startFall_frameBody]
    rfl

end Sys2Proof.Machine
end

section
/-! PROOFS. The packets of the nibble writer as port values (41_nibble R130, R131, R134): where the nibble and the flags go, and what
the LCD reads from each. -/

namespace Sys2Proof.Machine

/-! ### The nibble's place -/

/-- The upper nibble as a number, moved to bit 2. -/
theorem toNat_nibpos (x : Byte) : (nibpos x).toNat = x.toNat / 16 * 4 := by
  rw [nibpos, BitVec.toNat_shiftLeft, BitVec.toNat_ushiftRight, Nat.shiftRight_eq_div_pow, Nat.shiftLeft_eq]
  omega

theorem nibpos_eq_shiftLeft_nibble (x : Byte) : nibpos x = (x.extractLsb' 4 4).setWidth 8 <<< 2 := by
  apply BitVec.eq_of_toNat_eq
  rw [toNat_nibpos, BitVec.toNat_shiftLeft, BitVec.toNat_setWidth, BitVec.extractLsb'_toNat, Nat.shiftRight_eq_div_pow,
    Nat.shiftLeft_eq]
  omega

theorem nibpos_extract_nibble (x : Byte) : (nibpos x).extractLsb' 2 4 = x.extractLsb' 4 4 := by
  apply BitVec.eq_of_toNat_eq
  rw [BitVec.extractLsb'_toNat, BitVec.extractLsb'_toNat, toNat_nibpos, Nat.shiftRight_eq_div_pow, Nat.shiftRight_eq_div_pow]
  omega

theorem nibpos_extract_low (x : Byte) : (nibpos x).extractLsb' 0 2 = 0 := by
  apply BitVec.eq_of_toNat_eq
  rw [BitVec.extractLsb'_toNat, toNat_nibpos, Nat.shiftRight_zero]
  exact Nat.mod_eq_zero_of_dvd (Dvd.intro_left _ rfl)

theorem nibpos_extract_high (x : Byte) : (nibpos x).extractLsb' 6 2 = 0 := by
  apply BitVec.eq_of_toNat_eq
  rw [BitVec.extractLsb'_toNat, toNat_nibpos, Nat.shiftRight_eq_div_pow]
  show _ = 0
  omega

/-- Settles O38: the nibble's place as a number, and field by field. -/
theorem nibblePlacement : Obligations.NibblePlacement := by
  intro x
  have hx := toNat_nibpos x
  refine ⟨rfl, nibpos_eq_shiftLeft_nibble x, nibpos_extract_nibble x, nibpos_extract_low x, nibpos_extract_high x, ?_,
    Dvd.intro_left _ hx.symm, fun y hxy => ?_⟩
  · omega
  · rw [nibpos_eq_shiftLeft_nibble, nibpos_eq_shiftLeft_nibble, hxy]

/-! ### The packets -/

theorem getLsbD_rsBit_succ (rs : BitVec 1) (i : Nat) : (rsBit rs).getLsbD (i + 1) = false := by
  rw [rsBit, BitVec.getLsbD_setWidth, BitVec.getLsbD_of_ge rs _ (by omega), Bool.and_false]

theorem getLsbD_nibpos_of_lt (x : Byte) {i : Nat} (hi : i < 2) : (nibpos x).getLsbD i = false := by
  simp [nibpos, hi]

theorem nibpos_and_rsBit (x : Byte) (rs : BitVec 1) : nibpos x &&& rsBit rs = 0#8 := by
  apply BitVec.eq_of_getLsbD_eq
  intro i _
  rw [BitVec.getLsbD_and, BitVec.getLsbD_zero]
  cases i with
  | zero => rw [getLsbD_nibpos_of_lt x (by decide), Bool.false_and]
  | succ i => rw [getLsbD_rsBit_succ, Bool.and_false]

/-- Flag and nibble share no bit, so their sum is their bitwise or. -/
theorem nibpos_add_rsBit (x : Byte) (rs : BitVec 1) : nibpos x + rsBit rs = nibpos x ||| rsBit rs :=
  BitVec.add_eq_or_of_and_eq_zero _ _ (nibpos_and_rsBit x rs)

/-- Raising E in a packet with E low is a bitwise or. -/
theorem add_enableOff {p : Byte} (hp : portE p = false) : p + enableOff = p ||| 0x02 := by
  have hdisjoint : p &&& BitVec.twoPow 8 1 = 0#8 := by
    rw [BitVec.and_twoPow, ← portE, hp]
    rfl
  exact BitVec.add_eq_or_of_and_eq_zero p enableOff hdisjoint

@[simp] theorem portE_rsBit (rs : BitVec 1) : portE (rsBit rs) = false := getLsbD_rsBit_succ rs 0

@[simp] theorem portE_nibpos_or_rsBit (x : Byte) (rs : BitVec 1) : portE (nibpos x ||| rsBit rs) = false := by
  rw [portE, BitVec.getLsbD_or, getLsbD_nibpos_of_lt x (by decide), getLsbD_rsBit_succ, Bool.or_false]

@[simp] theorem portE_or_two (p : Byte) : portE (p ||| 2#8) = true := by
  rw [portE, BitVec.getLsbD_or]
  exact Bool.or_true _

/-- Settles O39: the summands share no bit, and they are at most 0x3C, 1 and 2. -/
theorem packetArithmetic : Obligations.PacketArithmetic := by
  intro x rs
  have hsum := nibpos_add_rsBit x rs
  refine ⟨hsum, ?_, ?_, ?_⟩
  · rw [hsum, add_enableOff (portE_nibpos_or_rsBit x rs)]
  · rw [hsum, BitVec.add_sub_cancel]
  · have hx := toNat_nibpos x
    have hrs : (rsBit rs).toNat = rs.toNat % 256 := BitVec.toNat_setWidth ..
    have he : enableOff.toNat = 2 := rfl
    have hxlt := x.isLt
    rw [BitVec.toNat_add, BitVec.toNat_add]
    omega

/-! ### The fields the LCD reads -/

theorem nibpos_extract_flag (x : Byte) : (nibpos x).extractLsb' 0 1 = 0#1 := by
  apply BitVec.eq_of_getLsbD_eq
  intro i hi
  rw [BitVec.getLsbD_extractLsb', getLsbD_nibpos_of_lt x (by omega), Bool.and_false, BitVec.getLsbD_zero]

theorem rsBit_extract_flag (rs : BitVec 1) : (rsBit rs).extractLsb' 0 1 = rs := by
  rw [rsBit, BitVec.extractLsb'_setWidth_of_le (by decide), BitVec.extractLsb'_eq_self]

theorem rsBit_extract_nibble (rs : BitVec 1) : (rsBit rs).extractLsb' 2 4 = 0#4 := by
  apply BitVec.eq_of_getLsbD_eq
  intro i _
  rw [BitVec.getLsbD_extractLsb', show 2 + i = i + 1 + 1 by omega, getLsbD_rsBit_succ, Bool.and_false, BitVec.getLsbD_zero]

/-- The packet of the flag alone carries the flag and an empty nibble. -/
@[simp] theorem latchOf_rsBit (rs : BitVec 1) : latchOf (rsBit rs) = { rs := rs, nibble := 0 } := by
  rw [latchOf, rsBit_extract_flag, rsBit_extract_nibble]
  rfl

/-- A packet of nibble and flag carries the upper nibble and the flag. -/
@[simp] theorem latchOf_nibpos_or_rsBit (x : Byte) (rs : BitVec 1) :
    latchOf (nibpos x ||| rsBit rs) = { rs := rs, nibble := x.extractLsb' 4 4 } := by
  rw [latchOf, BitVec.extractLsb'_or, BitVec.extractLsb'_or, nibpos_extract_flag, nibpos_extract_nibble, rsBit_extract_flag,
    rsBit_extract_nibble, BitVec.zero_or, BitVec.or_zero]

/-- E is none of the fields the LCD latches. -/
@[simp] theorem latchOf_or_two (p : Byte) : latchOf (p ||| 2#8) = latchOf p := by
  have hflag : (2#8).extractLsb' 0 1 = 0#1 := by decide
  have hnibble : (2#8).extractLsb' 2 4 = 0#4 := by decide
  rw [latchOf, latchOf, BitVec.extractLsb'_or, BitVec.extractLsb'_or, hflag, hnibble, BitVec.or_zero, BitVec.or_zero]

end Sys2Proof.Machine
end

section
/-! PROOFS. What an ideal receiver and the LCD make of a nibble (41_nibble R135 to R137), and LCD_NIBBLE. -/

namespace Sys2Proof.Machine

/-! ### The payloads of events in parts -/

/-- A frame before any events gives one payload, and leaves bus idle. -/
theorem payloads_frame_append (b : Byte) (ls : Lines) (es : List Event) :
    payloads ls (opsEvents (frame b) ++ es) = b :: payloads bothHigh es := by
  rw [payloads, wires_append, linesAfterAll_frame, decodedFrames_frame_append, List.filterMap_cons, framePayload_frameBits]
  rfl

/-- A hold is no wire event. -/
theorem payloads_hold_append (d : Duration) (ls : Lines) (es : List Event) :
    payloads ls (opsEvents [.hold d] ++ es) = payloads ls es := rfl

/-- The four packets of a nibble (41_nibble R135). -/
def nibblePayloads (x : Byte) (rs : BitVec 1) : List Byte :=
  [rsBit rs, nibpos x ||| rsBit rs, nibpos x ||| rsBit rs ||| 0x02, nibpos x ||| rsBit rs]

/-- A nibble leaves bus idle: its last frame does, and the hold after it writes no line (40_transport R107). -/
theorem linesAfterAll_nib (x : Byte) (rs : BitVec 1) (ls : Lines) : linesAfterAll ls (opsEvents (nib x rs)) = bothHigh := by
  rw [nib, opsEvents_append, linesAfterAll_append, opsEvents_append, linesAfterAll_append, linesAfterAll_frame]
  rfl

/-- A nibble before any events gives its four packets. -/
theorem payloads_nib_append (x : Byte) (rs : BitVec 1) (ls : Lines) (es : List Event) :
    payloads ls (opsEvents (nib x rs) ++ es) = nibblePayloads x rs ++ payloads bothHigh es := by
  simp only [nib, opsEvents_append, List.append_assoc, payloads_frame_append, payloads_hold_append]
  rw [nibpos_add_rsBit, add_enableOff (portE_nibpos_or_rsBit x rs)]
  rfl

theorem payloads_nib (x : Byte) (rs : BitVec 1) (ls : Lines) : payloads ls (opsEvents (nib x rs)) = nibblePayloads x rs := by
  rw [← List.append_nil (opsEvents _), payloads_nib_append]
  rfl

/-- The latches of a nibble: its own, and before it one of the flag packet where the port had E = 1 (41_nibble R137). -/
theorem latches_nibblePayloads (port x : Byte) (rs : BitVec 1) :
    latches port (nibblePayloads x rs) =
      (if portE port then [{ rs := rs, nibble := 0 }] else []) ++ [{ rs := rs, nibble := x.extractLsb' 4 4 }] := by
  simp [nibblePayloads, latches]

/-- Settles O40: the expansion is one nibble, which has no SREAD and ends in a frame and a hold. -/
theorem lcdNibbleCompletes : Obligations.LcdNibbleCompletes :=
  fun x rs _ hs ha => ⟨runsTo_of_plain (i := .lcdNibble x rs) hs ha (nib_plain x rs), linesAfterAll_nib x rs _⟩

/-- Settles O41: the receiver sees the four frames' payloads, whose fields are read off packet by packet. -/
theorem nibblePackets : Obligations.NibblePackets := by
  intro x rs ls
  rw [payloads_nib]
  refine ⟨rfl, ?_, ?_, ?_, length_nib x rs⟩ <;> simp [nibblePayloads]

/-- Settles O42: E falls after the third packet, and at the first one where the port had E = 1. -/
theorem oneLatchPerNibble : Obligations.OneLatchPerNibble := by
  intro x rs ls port
  rw [payloads_nib, latches_nibblePayloads]
  refine ⟨fun hport => by simp [hport], fun hport => by simp [hport], ?_⟩
  exact congrArg some (portE_nibpos_or_rsBit x rs)

end Sys2Proof.Machine
end

section
/-! PROOFS. SREAD at the sequencer's turn (42_lcd_commands R159): its four outcomes as equations, by what the read answers, and a read
that is not admitted, which stays so (20_memory R51, 60_exceptions R202). -/

namespace Sys2Proof.Machine

/-- A read of an address that does not exist or is not readable is not admitted. -/
theorem State.memRead_of_notAdmitted {s : State} {a : Nat} (h : notAdmitted s a) : s.memRead a = none := by
  rcases h with hge | hnone
  · simp [State.memRead, addrExists_iff, Nat.not_lt.2 hge]
  · simp [State.memRead, hnone]

section
variable {s t : State} {p : Addr} {i : Fin 17}

theorem performSread_unread (hi : i.val = 16) (hpeek : s.params.strPeek16 = false) : performSread p i s = .next s := by
  simp [performSread, hi, hpeek]

theorem performSread_ends {c : Byte} (hread : s.memRead (charAddr p i) = some (c, t))
    (hreads : i.val < 16 ∨ s.params.strPeek16 = true) (hend : c = 0 ∨ i.val = 16) :
    performSread p i s = .next (t.emit (.read (charAddr p i) c)) := by
  by_cases hi : i.val < 16
  · obtain rfl := hend.resolve_right hi.ne
    simp [performSread, hi, hread, sreadContinue]
  · simp [performSread, hi, hreads.resolve_left hi, hread]

theorem performSread_continues {c : Byte} (hread : s.memRead (charAddr p i) = some (c, t)) {j : Fin 17}
    (hj : j.val = i.val + 1) (hc : c ≠ 0) :
    performSread p i s = .next { t.emit (.read (charAddr p i) c) with pend := chr c ++ [.sread p j] ++ t.pend } := by
  have hi : i.val < 16 := by omega
  have hnext : (⟨i.val + 1, by omega⟩ : Fin 17) = j := Fin.ext hj.symm
  rw [performSread, dif_pos hi, hread, hnext]
  simp only [sreadContinue, if_neg hc]
  rfl

theorem performSread_stuck (hread : s.memRead (charAddr p i) = none) (hreads : i.val < 16 ∨ s.params.strPeek16 = true) :
    performSread p i s = .fault (.stuckRead (charAddr p i)) := by
  by_cases hi : i.val < 16
  · simp [performSread, hi, hread]
  · simp [performSread, hi, hreads.resolve_left hi, hread]

end

/-- With an SREAD at PEND's head the sequencer's turn performs it. -/
theorem step_performSread {s : State} {p : Addr} {i : Fin 17} {rest : List MicroOp} (hturn : sequencerMoves s)
    (hf : s.fault = none) (hm : s.mode = .busy) (hp : s.pend = .sread p i :: rest) :
    step s = performSread p i { s with pend := rest, agenda := afterTurn s.agenda } :=
  step_perform hturn hf hm hp

/-- A read that is not admitted leaves the sequencer's turn without a next state (20_memory R51). -/
theorem step_stuck {s : State} {p : Addr} {i : Fin 17} {rest : List MicroOp} (hturn : sequencerMoves s) (hf : s.fault = none)
    (hm : s.mode = .busy) (hp : s.pend = .sread p i :: rest) (hreads : i.val < 16 ∨ s.params.strPeek16 = true)
    (hstuck : notAdmitted s (charAddr p i)) : step s = .fault (.stuckRead (charAddr p i)) :=
  (step_performSread hturn hf hm hp).trans (performSread_stuck (State.memRead_of_notAdmitted hstuck) hreads)

/-- In BUSY a step that is neither the sequencer's turn nor reset leaves MODE, PEND and TRACE (60_exceptions R205). -/
theorem busy_step_without_turn {s t : State} (h : step s = .next t) (hm : s.mode = .busy) (hturn : ¬ sequencerMoves s)
    (hreset : s.agenda.head? ≠ some .reset) : t.mode = .busy ∧ t.pend = s.pend ∧ t.trace = s.trace := by
  have hidle : s.mode ≠ .idle := by simp [hm]
  rcases step_next h with ⟨ht, -⟩ | ⟨rest, ha, hi, -⟩ | ⟨w, rest, ha, h⟩ | ⟨a, v, rest, ha, hr, rfl⟩ |
    ⟨a, v, rest, l, ha, hr, hl, rfl⟩ | ⟨rest, ha, -⟩ | ⟨cells, rest, ha, htrace, hi, -⟩
  · exact absurd ht hturn
  · exact absurd hi hidle
  · rcases issueWord_next h with ⟨-, rfl⟩ | ⟨-, -, v, rfl, -⟩ | ⟨-, hi, -⟩ | ⟨-, hi, -⟩
    · exact ⟨hm, rfl, rfl⟩
    · exact ⟨hm, rfl, rfl⟩
    · exact absurd hi hidle
    · exact absurd hi hidle
  · exact ⟨hm, rfl, rfl⟩
  · exact ⟨hm, rfl, rfl⟩
  · exact absurd (by simp [ha]) hreset
  · exact absurd hi hidle

/-- In BUSY no step makes a byte readable, so a read that is not admitted stays so (20_memory R51). -/
theorem notAdmitted_kept_in_busy {s t : State} (h : step s = .next t) (hm : s.mode = .busy) {a : Nat}
    (hstuck : notAdmitted s a) : notAdmitted t a := by
  obtain ⟨hmem, hparams⟩ := memStep_of_step h
  refine hstuck.imp (fun hge => hparams ▸ hge) (hmem.readable_iff (fun cells hl => ?_) a).2
  obtain ⟨-, hidle, -⟩ := hmem.of_launch hl
  exact nomatch hm.symm.trans hidle

/-- Settles O30: the sequencer's turn performs the SREAD, whose outcome what the read answers decides; a stuck one can only see moves
of the host. -/
theorem sreadStep : Obligations.SreadStep := by
  refine ⟨fun s p i rest hturn hf hm hp => ?_, fun s t p i rest hm hp hreads hstuck hreset h => ?_⟩
  · have hplain : ∀ c, p.toNat + i.val ∉ s.clobbered → p.toNat + i.val < 2 ^ addrWidth s.params →
        s.mem.read (p.toNat + i.val) = some c →
        State.memRead { s with pend := rest, agenda := afterTurn s.agenda } (charAddr p i) =
          some (c, { s with pend := rest, agenda := afterTurn s.agenda }) :=
      fun c hc hlt hr => State.memRead_plain ((addrExists_iff _ _).2 hlt) hr hc
    have hstep := step_performSread hturn hf hm hp
    exact ⟨fun hi hpeek => hstep.trans (performSread_unread hi hpeek),
      fun hreads c hc hlt hr hend => hstep.trans (performSread_ends (hplain c hc hlt hr) hreads hend),
      fun j c hj hc hlt hr hgo => hstep.trans (performSread_continues (hplain c hc hlt hr) hj hgo),
      step_stuck hturn hf hm hp⟩
  · have hturn : ¬ sequencerMoves s := fun hturn =>
      have hf : s.fault = none := (sequencerStep_next ((step_sequencerMoves hturn).symm.trans h)).1
      nomatch h.symm.trans (step_stuck hturn hf hm hp hreads hstuck)
    obtain ⟨htm, htp, htt⟩ := busy_step_without_turn h hm hturn hreset
    exact ⟨htm, htp, htt, (memStep_of_step h).2, notAdmitted_kept_in_busy h hm hstuck⟩

end Sys2Proof.Machine
end

section
/-! PROOFS. Positioning (42_lcd_commands R157, R161, R168): on the display it is one command write of base and column, off it
nothing; the 1-based translation of the wrappers. -/

namespace Sys2Proof.Machine

theorem onDisplay_iff (col row : Byte) : onDisplay col row = true ↔ row.toNat < 2 ∧ col.toNat < 16 := by
  simp [onDisplay]

theorem gotoOps_of_onDisplay {col row : Byte} (hrow : row.toNat < 2) (hcol : col.toNat < 16) :
    gotoOps col row = cmd (ddramBase row ||| col) ++ [.hold (.named .gotoPost)] :=
  if_pos ((onDisplay_iff col row).2 ⟨hrow, hcol⟩)

theorem gotoOps_of_offDisplay {col row : Byte} (h : ¬ (row.toNat < 2 ∧ col.toNat < 16)) : gotoOps col row = [] :=
  if_neg (mt (onDisplay_iff col row).1 h)

theorem gotoOps_ne_nil_iff (col row : Byte) : gotoOps col row ≠ [] ↔ row.toNat < 2 ∧ col.toNat < 16 := by
  constructor
  · exact Not.imp_symm gotoOps_of_offDisplay
  · rintro ⟨hrow, hcol⟩
    rw [gotoOps_of_onDisplay hrow hcol]
    exact List.append_ne_nil_of_right_ne_nil _ (List.cons_ne_nil _ _)

/-! ### The 1-based translation -/

theorem toNat_zeroBased (v : Byte) : (zeroBased v).toNat = (v.toNat + 255) % 256 := by
  rw [zeroBased, BitVec.toNat_sub, Nat.add_comm]
  rfl

/-- A 1-based coordinate lies within the first n exactly when it is one of 1 to n; 0 becomes 255 and does not. -/
theorem zeroBased_lt_iff (v : Byte) {n : Nat} (hn : n ≤ 255) : (zeroBased v).toNat < n ↔ 1 ≤ v.toNat ∧ v.toNat ≤ n := by
  have hlt := v.isLt
  rw [toNat_zeroBased]
  omega

theorem gotoOneBased_ne_nil_iff (row1 col1 : Byte) :
    gotoOneBased row1 col1 ≠ [] ↔ 1 ≤ row1.toNat ∧ row1.toNat ≤ 2 ∧ 1 ≤ col1.toNat ∧ col1.toNat ≤ 16 := by
  rw [gotoOneBased, gotoOps_ne_nil_iff, zeroBased_lt_iff row1 (by decide), zeroBased_lt_iff col1 (by decide), and_assoc]

/-- Settles O50: the translation is arithmetic modulo 256, and a wrapper's write stands behind its positioning, empty or not. -/
theorem oneBasedTranslation : Obligations.OneBasedTranslation := by
  have hzero (row1 col1 : Byte) (h : row1 = 0 ∨ col1 = 0) : gotoOneBased row1 col1 = [] := by
    by_contra hne
    obtain ⟨hrow, -, hcol, -⟩ := (gotoOneBased_ne_nil_iff row1 col1).1 hne
    rcases h with rfl | rfl
    · exact absurd hrow (by decide)
    · exact absurd hcol (by decide)
  refine ⟨toNat_zeroBased, fun v hv => ?_, rfl, fun v => ⟨hzero 0 v (.inl rfl), hzero v 0 (.inr rfl)⟩,
    gotoOneBased_ne_nil_iff, fun p row1 col1 c q hnil => ?_, fun p row1 col1 c q _ => ⟨rfl, rfl⟩⟩
  · have hpos : v.toNat ≠ 0 := fun h => hv (BitVec.eq_of_toNat_eq h)
    have hlt := v.isLt
    rw [toNat_zeroBased]
    omega
  · rw [expand, expand, hnil]
    exact ⟨rfl, rfl⟩

/-! ### The positioning command -/

/-- A base is a multiple of 16, so a column below 16 is added to it by bitwise or. -/
theorem toNat_ddramBase_or (row : Byte) {col : Byte} (hcol : col.toNat < 16) :
    (ddramBase row ||| col).toNat = (ddramBase row).toNat + col.toNat := by
  obtain ⟨k, hk⟩ : ∃ k, (ddramBase row).toNat = 2 ^ 4 * k := by
    unfold ddramBase
    split
    · exact ⟨8, rfl⟩
    · exact ⟨12, rfl⟩
  rw [BitVec.toNat_or, hk]
  exact (Nat.two_pow_add_eq_or_of_lt hcol k).symm

/-- Settles O51: as a number the command is base plus column, and the column is at most 15. -/
theorem positioningCommandRange : Obligations.PositioningCommandRange := by
  intro col row hrow hcol
  have hor := toNat_ddramBase_or row hcol
  refine ⟨BitVec.eq_of_toNat_eq ?_, ?_, ?_, gotoOps_of_onDisplay hrow hcol⟩
  · rw [BitVec.toNat_add, ← hor, Nat.mod_eq_of_lt (BitVec.isLt _)]
  · rintro rfl
    have hbase : (ddramBase 0).toNat = 0x80 := rfl
    omega
  · rintro rfl
    have hbase : (ddramBase 1).toNat = 0xC0 := rfl
    omega

end Sys2Proof.Machine
end

section
/-! PROOFS. The commands of the byte, command and string layer from IDLE (42_lcd_commands R152 to R163): each is accepted with its
expansion and, left alone, completes with its events; a character or command write leaves bus idle. -/

namespace Sys2Proof.Machine

/-! ### The lines after a write (40_transport R107) -/

theorem linesAfterAll_chr (c : Byte) (ls : Lines) : linesAfterAll ls (opsEvents (chr c)) = bothHigh := by
  rw [chr, opsEvents_append, linesAfterAll_append, linesAfterAll_nib]

theorem linesAfterAll_cmd (c : Byte) (ls : Lines) : linesAfterAll ls (opsEvents (cmd c)) = bothHigh := by
  rw [cmd, opsEvents_append, linesAfterAll_append, linesAfterAll_nib]

/-- The expansion of LCD_INIT written out (42_lcd_commands R155). -/
theorem initOps_eq (p : Params) : initOps p =
    [.hold (.named .powerUp)] ++ cmd 0x32 ++ cmd p.cmdFuncset ++ cmd p.cmdDispctl ++ cmd p.cmdClear ++ cmd p.cmdEntry := by
  simp [initOps, initBytes, cmdReset8]

theorem linesAfterAll_initOps (p : Params) (ls : Lines) : linesAfterAll ls (opsEvents (initOps p)) = bothHigh := by
  rw [initOps_eq, opsEvents_append, linesAfterAll_append, linesAfterAll_cmd]

/-! ### The commands without an SREAD -/

/-- Settles O43: the expansion is one character write. -/
theorem lcdCharCompletes : Obligations.LcdCharCompletes :=
  fun c _ hs ha => ⟨runsTo_of_plain (i := .lcdChar c) hs ha (chr_plain c), linesAfterAll_chr c _⟩

/-- Settles O44: the expansion is one command write. -/
theorem lcdCmdCompletes : Obligations.LcdCmdCompletes :=
  fun c _ hs ha => ⟨runsTo_of_plain (i := .lcdCmd c) hs ha (cmd_plain c), linesAfterAll_cmd c _⟩

/-- Settles O45: the expansion is that of R155, whose five command writes stand in its order. -/
theorem lcdInitCompletes : Obligations.LcdInitCompletes := by
  intro s hs ha
  have hrun := runsTo_of_plain (i := .lcdInit) hs ha (initOps_plain s.params)
  rw [← initOps_eq]
  exact ⟨hrun, linesAfterAll_initOps s.params _⟩

/-- Settles O46: the expansion is the positioning, a command write and a wait on the display and empty off it. -/
theorem lcdGotoCompletes : Obligations.LcdGotoCompletes := by
  intro col row s hs ha
  have hrun : runsTo (.lcdGoto col row) s (gotoOps col row) (opsEvents (gotoOps col row)) :=
    runsTo_of_plain hs ha (gotoOps_plain col row)
  refine ⟨fun hrow hcol => ?_, fun hoff => ⟨?_, rfl, rfl⟩⟩
  · rw [gotoOps_of_onDisplay hrow hcol, opsEvents_append] at hrun
    exact hrun
  · rwa [gotoOps_of_offDisplay hoff] at hrun

/-- Settles O49: the expansion is the positioning and one character write. -/
theorem lcdCharAtPositionsThenWrites : Obligations.LcdCharAtPositionsThenWrites := by
  intro row1 col1 c s hs ha
  have hplain := plain_append (gotoOps_plain (col1 - 1) (row1 - 1)) (chr_plain c)
  rw [← opsEvents_append]
  refine ⟨runsTo_of_plain (i := .lcdCharAt row1 col1 c) hs ha hplain, ?_⟩
  rw [opsEvents_append, linesAfterAll_append, linesAfterAll_chr]

/-! ### The string commands -/

/-- Settles O47: the expansion is the string loop, with no operation before it. -/
theorem lcdStrWritesTheString : Obligations.LcdStrWritesTheString :=
  fun p _ _ _ hs ha hstr => runsTo_of_runSteps (i := .lcdStr p) hs (accepted_string_runs hs ha _ plain_nil hstr)

/-- Settles O48: the expansion is the positioning and the string loop. -/
theorem lcdStrAtPositionsThenWrites : Obligations.LcdStrAtPositionsThenWrites :=
  fun row1 col1 p _ _ _ hs ha hstr =>
    runsTo_of_runSteps (i := .lcdStrAt row1 col1 p) hs (accepted_string_runs hs ha _ (gotoOps_plain _ _) hstr)

end Sys2Proof.Machine
end

section
/-! PROOFS. What an ideal receiver and the LCD make of the byte layer (42_lcd_commands R164, R165): a byte write is eight packets with
its tag, two latches, and one LCD byte; LCD_INIT and a string write are theirs in order. -/

namespace Sys2Proof.Machine

/-! ### The packets -/

/-- Events that show nothing on the wires, at the end, give no payload. -/
theorem payloads_append_of_wires_nil {ys : List Event} (h : ∀ ls, wires ls ys = []) (ls : Lines) (xs : List Event) :
    payloads ls (xs ++ ys) = payloads ls xs := by
  rw [payloads, wires_append, h, List.append_nil, payloads]

theorem payloads_nil (ls : Lines) : payloads ls [] = [] := rfl

/-- A read is no wire event. -/
theorem payloads_read_cons (a : Nat) (c : Byte) (ls : Lines) (es : List Event) :
    payloads ls (.read a c :: es) = payloads ls es := rfl

/-- The eight packets of a byte written with a tag (42_lcd_commands R151, R153). -/
def bytePayloads (rs : BitVec 1) (c : Byte) : List Byte := nibblePayloads c rs ++ nibblePayloads (lo c) rs

/-- A character write before any events gives its packets, tagged as data. -/
theorem payloads_chr_append (c : Byte) (ls : Lines) (es : List Event) :
    payloads ls (opsEvents (chr c) ++ es) = bytePayloads 1 c ++ payloads bothHigh es := by
  rw [chr, opsEvents_append, opsEvents_append, List.append_assoc, List.append_assoc, payloads_hold_append, payloads_nib_append,
    payloads_nib_append, bytePayloads, List.append_assoc]

/-- A command write before any events gives its packets, tagged as instruction. -/
theorem payloads_cmd_append (c : Byte) (ls : Lines) (es : List Event) :
    payloads ls (opsEvents (cmd c) ++ es) = bytePayloads 0 c ++ payloads bothHigh es := by
  rw [cmd, opsEvents_append, opsEvents_append, opsEvents_append, List.append_assoc, List.append_assoc, List.append_assoc,
    payloads_hold_append, payloads_nib_append, payloads_hold_append, payloads_nib_append, bytePayloads, List.append_assoc]

theorem payloads_chr (c : Byte) (ls : Lines) : payloads ls (opsEvents (chr c)) = bytePayloads 1 c := by
  rw [← List.append_nil (opsEvents _), payloads_chr_append, payloads_nil, List.append_nil]

theorem payloads_cmd (c : Byte) (ls : Lines) : payloads ls (opsEvents (cmd c)) = bytePayloads 0 c := by
  rw [← List.append_nil (opsEvents _), payloads_cmd_append, payloads_nil, List.append_nil]

/-- Command writes one after the other give their packets in order. -/
theorem payloads_cmds (cs : List Byte) (ls : Lines) :
    payloads ls (opsEvents (cs.flatMap cmd)) = cs.flatMap (bytePayloads 0) := by
  induction cs generalizing ls with
  | nil => rfl
  | cons c cs ih => rw [List.flatMap_cons, opsEvents_append, payloads_cmd_append, ih, List.flatMap_cons]

theorem payloads_initOps (p : Params) (ls : Lines) :
    payloads ls (opsEvents (initOps p)) = (initBytes p).flatMap (bytePayloads 0) := by
  rw [initOps, opsEvents_append, payloads_hold_append, payloads_cmds]

/-- A string's characters give their packets in order. -/
theorem payloads_charEvents (p : Addr) (k : Nat) (cs : List Byte) (ls : Lines) :
    payloads ls (charEvents p k cs) = cs.flatMap (bytePayloads 1) := by
  induction cs generalizing k ls with
  | nil => rfl
  | cons c cs ih =>
    rw [charEvents, List.cons_append, payloads_read_cons, payloads_chr_append, ih, List.flatMap_cons]

/-- The reads after a string's characters add no payload. -/
theorem payloads_stringEvents (s : State) (p : Addr) (cs : List Byte) (d : Byte) (ls : Lines) :
    payloads ls (stringEvents s p cs d) = cs.flatMap (bytePayloads 1) := by
  rw [stringEvents, payloads_append_of_wires_nil (fun ls => ?_), payloads_charEvents]
  split_ifs <;> rfl

/-- Positioning gives the packets of its command write, or none. -/
theorem payloads_gotoOps (col row : Byte) (ls : Lines) :
    payloads ls (opsEvents (gotoOps col row)) =
      if onDisplay col row then bytePayloads 0 (ddramBase row ||| col) else [] := by
  unfold gotoOps
  split
  · rw [opsEvents_append, payloads_append_of_wires_nil (fun _ => rfl), payloads_cmd]
  · rfl

/-! ### The tag -/

/-- Every packet of a byte write carries its tag. -/
theorem latchOf_bytePayloads_rs {rs : BitVec 1} {c b : Byte} (h : b ∈ bytePayloads rs c) : (latchOf b).rs = rs := by
  have hnibble : ∀ x, b ∈ nibblePayloads x rs → (latchOf b).rs = rs := by
    intro x hb
    simp only [nibblePayloads, List.mem_cons, List.not_mem_nil, or_false] at hb
    rcases hb with rfl | rfl | rfl | rfl <;> simp
  rcases List.mem_append.1 h with hb | hb
  · exact hnibble _ hb
  · exact hnibble _ hb

theorem latchOf_flatMap_bytePayloads_rs {rs : BitVec 1} {cs : List Byte} {b : Byte} (h : b ∈ cs.flatMap (bytePayloads rs)) :
    (latchOf b).rs = rs := by
  obtain ⟨c, -, hb⟩ := List.mem_flatMap.1 h
  exact latchOf_bytePayloads_rs hb

/-- Settles O52: each of the five is made of byte writes, of one tag. -/
theorem dataAndCommandTagging : Obligations.DataAndCommandTagging := by
  intro ls p c col row q cs b
  rw [payloads_chr, payloads_charEvents, payloads_cmd, payloads_initOps, payloads_gotoOps]
  refine ⟨latchOf_bytePayloads_rs, latchOf_flatMap_bytePayloads_rs, latchOf_bytePayloads_rs, latchOf_flatMap_bytePayloads_rs,
    fun hb => ?_⟩
  split at hb
  · exact latchOf_bytePayloads_rs hb
  · exact absurd hb List.not_mem_nil

/-! ### The latches and the LCD bytes -/

/-- The two latches of a byte, upper nibble first. -/
def byteLatches (rs : BitVec 1) (c : Byte) : List Latch :=
  [{ rs := rs, nibble := c.extractLsb' 4 4 }, { rs := rs, nibble := c.extractLsb' 0 4 }]

/-- Of the port value before, only its E matters to the latches. -/
theorem latches_congr_portE {p q : Byte} (h : portE p = portE q) (bs : List Byte) : latches p bs = latches q bs := by
  cases bs with
  | nil => rfl
  | cons b bs => rw [latches, latches, h]

/-- `lo` moves the lower nibble to the upper place. -/
theorem lo_extract_upper (c : Byte) : (lo c).extractLsb' 4 4 = c.extractLsb' 0 4 := by
  apply BitVec.eq_of_toNat_eq
  rw [lo, BitVec.extractLsb'_toNat, BitVec.extractLsb'_toNat, BitVec.toNat_shiftLeft, Nat.shiftRight_eq_div_pow,
    Nat.shiftRight_eq_div_pow, Nat.shiftLeft_eq]
  omega

section
variable {port : Byte} (hport : portE port = false)
include hport

/-- A nibble's packets before any others give its latch, and leave E = 0. -/
theorem latches_nibblePayloads_append (x : Byte) (rs : BitVec 1) (bs : List Byte) :
    latches port (nibblePayloads x rs ++ bs) = { rs := rs, nibble := x.extractLsb' 4 4 } :: latches port bs := by
  have hlast : portE (nibpos x ||| rsBit rs) = portE port := (portE_nibpos_or_rsBit x rs).trans hport.symm
  rw [latches_append, latches_nibblePayloads, hport, ← latches_congr_portE hlast]
  rfl

theorem latches_bytePayloads_append (rs : BitVec 1) (c : Byte) (bs : List Byte) :
    latches port (bytePayloads rs c ++ bs) = byteLatches rs c ++ latches port bs := by
  rw [bytePayloads, List.append_assoc, latches_nibblePayloads_append hport, latches_nibblePayloads_append hport,
    lo_extract_upper]
  rfl

theorem latches_bytePayloads (rs : BitVec 1) (c : Byte) : latches port (bytePayloads rs c) = byteLatches rs c := by
  rw [← List.append_nil (bytePayloads rs c), latches_bytePayloads_append hport]
  rfl

/-- Byte writes one after the other give their latches in order. -/
theorem latches_flatMap_bytePayloads (rs : BitVec 1) (cs : List Byte) :
    latches port (cs.flatMap (bytePayloads rs)) = cs.flatMap (byteLatches rs) := by
  induction cs with
  | nil => rfl
  | cons c cs ih => rw [List.flatMap_cons, latches_bytePayloads_append hport, ih, List.flatMap_cons]

end

/-- Latches of whole bytes pair up to those bytes. -/
theorem lcdBytes_flatMap_byteLatches (rs : BitVec 1) (cs : List Byte) :
    lcdBytes (cs.flatMap (byteLatches rs)) = cs.map (fun c => { rs := rs, byte := c, consistent := true }) := by
  induction cs with
  | nil => rfl
  | cons c cs ih =>
    rw [List.flatMap_cons, byteLatches, List.cons_append, List.cons_append, List.nil_append, lcdBytes, ih,
      BitVec.extractLsb'_append_extractLsb', beq_self_eq_true, List.map_cons]

theorem lcdBytes_byteLatches (rs : BitVec 1) (c : Byte) :
    lcdBytes (byteLatches rs c) = [{ rs := rs, byte := c, consistent := true }] := by
  simpa using lcdBytes_flatMap_byteLatches rs [c]

/-- Settles O53: a byte write gives its two latches, which pair up to the byte. -/
theorem nibbleRoundTrip : Obligations.NibbleRoundTrip := by
  intro ls port c hport
  rw [payloads_cmd, payloads_chr, latches_bytePayloads hport, latches_bytePayloads hport]
  exact ⟨rfl, lcdBytes_byteLatches 0 c, rfl, lcdBytes_byteLatches 1 c⟩

/-- Settles O54: LCD_INIT is five command writes; at the defaults their bytes, and so their nibbles, are fixed. -/
theorem initializeSendsFiveBytes : Obligations.InitializeSendsFiveBytes := by
  intro ls port p hport
  rw [payloads_initOps, payloads_initOps, latches_flatMap_bytePayloads hport, latches_flatMap_bytePayloads hport]
  have hdefaults : initBytes p.atDefaults = [0x32, 0x28, 0x0C, 0x01, 0x06] := rfl
  refine ⟨lcdBytes_flatMap_byteLatches 0 (initBytes p), ?_⟩
  rw [hdefaults]
  decide

/-- Settles O55: a string write's packets are those of its characters, each tagged as data. -/
theorem stringReachesTheReceiver : Obligations.StringReachesTheReceiver := by
  intro ls port s p cs d hport
  rw [payloads_stringEvents, latches_flatMap_bytePayloads hport, lcdBytes_flatMap_byteLatches]

end Sys2Proof.Machine
end

section
/-! PROOFS. No retained state (42_lcd_commands R166): left alone, what a command in progress does next is decided by its pending
operations and, at an SREAD, by the parameters and the string memory; so two blocks with the same operations pending run in step. -/

namespace Sys2Proof.Machine

theorem runSteps_one (s : State) : runSteps 1 s = step s := by
  rw [runSteps]
  cases step s <;> rfl

/-- A run of at least one step begins with a step. -/
theorem exists_step_of_runSteps_succ {n : Nat} {s u : State} (h : runSteps (n + 1) s = .next u) :
    ∃ t, step s = .next t ∧ runSteps n t = .next u := by
  rw [runSteps] at h
  cases hstep : step s with
  | next t => rw [hstep] at h; exact ⟨t, rfl, h⟩
  | fault r => rw [hstep] at h; cases h
  | refused r => rw [hstep] at h; cases h

/-- The expansion of a command that reads no string memory has no SREAD. -/
theorem plain_expand (p : Params) {i : Instr} (h : readsString i = false) : plain (expand p i) := by
  cases i with
  | i2cOut arg => exact frame_plain _
  | lcdNibble x rs => exact nib_plain x rs
  | lcdChar c => exact chr_plain c
  | lcdCmd c => exact cmd_plain c
  | lcdInit => exact initOps_plain p
  | lcdStr q => cases h
  | lcdGoto col row => exact gotoOps_plain col row
  | lcdStrAt row1 col1 q => cases h
  | lcdCharAt row1 col1 c => exact plain_append (gotoOps_plain _ _) (chr_plain c)

/-- An accepted command has performed nothing yet. -/
theorem performed_accept (s : State) (w : Word) (ops : List MicroOp) : performed (s.accept w ops) [] ops = s.accept w ops :=
  performed_nil (s.accept w ops)

/-- A read that is admitted has a byte. -/
theorem exists_holdsByte_of_admitted {s : State} {a : Nat} (h : ¬ notAdmitted s a) : ∃ c, holdsByte s a c := by
  obtain ⟨hlt, hr⟩ := not_or.1 h
  obtain ⟨c, hc⟩ := Option.ne_none_iff_exists'.1 hr
  exact ⟨c, (addrExists_iff _ _).2 (Nat.not_le.1 hlt), hc⟩

section
variable {s : State} (h : Alone s) (evs : List Event)
include h

/-- A line write or hold at PEND's head adds its event. -/
theorem step_plain_performed {op : MicroOp} (hop : isSread op = false) (rest : List MicroOp) :
    step (performed s evs (op :: rest)) = .next (performed s (evs ++ opEvents op) rest) := by
  have hrun := run_plain_performed h evs (ops := [op]) (by simp [plain, hop]) rest
  rw [List.length_singleton, runSteps_one, opsEvents_cons, opsEvents_nil, List.append_nil] at hrun
  exact hrun

/-- An SREAD of a byte that is not admitted is stuck. -/
theorem step_stuck_performed {p : Addr} {i : Fin 17} (hreads : i.val < 16 ∨ s.params.strPeek16 = true)
    (hstuck : notAdmitted s (charAddr p i)) (rest : List MicroOp) :
    step (performed s evs (.sread p i :: rest)) = .fault (.stuckRead (charAddr p i)) :=
  step_stuck (.inl h.agenda) h.fault h.mode rfl hreads hstuck

/-- With nothing pending the command completes, and the block then waits. -/
theorem run_done_waits (n : Nat) : runSteps (n + 1) (performed s evs []) = .next (performed s evs []).finish := by
  rw [Nat.add_comm, runSteps_add (run_done h evs)]
  exact runSteps_idle (s := (performed s evs []).finish) h.agenda h.fault rfl n

end

/-! ### Two blocks with the same operations pending -/

section
variable {s s' : State} (h : Alone s) (h' : Alone s') (hparams : s.params = s'.params) (evs : List Event)
include h h' hparams

/-- With equal string memories, an SREAD that is not stuck has one outcome in both blocks. -/
theorem step_sread_alike (hmem : s.mem = s'.mem) (p : Addr) (i : Fin 17) (rest : List MicroOp) :
    (∃ r, step (performed s evs (.sread p i :: rest)) = .fault r) ∨
    ∃ evs' ops', step (performed s evs (.sread p i :: rest)) = .next (performed s evs' ops') ∧
      step (performed s' evs (.sread p i :: rest)) = .next (performed s' evs' ops') := by
  by_cases hreads : i.val < 16 ∨ s.params.strPeek16 = true
  · by_cases hstuck : notAdmitted s (charAddr p i)
    · exact .inl ⟨_, step_stuck_performed h evs hreads hstuck rest⟩
    obtain ⟨c, hc⟩ := exists_holdsByte_of_admitted hstuck
    have hc' : holdsByte s' (charAddr p i) c := ⟨hparams ▸ hc.1, hmem ▸ hc.2⟩
    by_cases hi : i.val < 16
    · by_cases h0 : c = 0
      · exact .inr ⟨_, _, step_sread_last h evs hc (.inl ⟨hi, h0⟩) rest, step_sread_last h' evs hc' (.inl ⟨hi, h0⟩) rest⟩
      · obtain ⟨j, hj⟩ : ∃ j : Fin 17, j.val = i.val + 1 := ⟨⟨i.val + 1, by omega⟩, rfl⟩
        exact .inr ⟨_, _, step_sread_char h evs hj hc h0 rest, step_sread_char h' evs hj hc' h0 rest⟩
    · have h16 : i.val = 16 := by omega
      have hpeek := hreads.resolve_left hi
      exact .inr ⟨_, _, step_sread_last h evs hc (.inr ⟨h16, hpeek⟩) rest,
        step_sread_last h' evs hc' (.inr ⟨h16, hparams ▸ hpeek⟩) rest⟩
  · obtain ⟨hi, hpeek⟩ := not_or.1 hreads
    have h16 : i.val = 16 := by omega
    have hpeek := Bool.eq_false_iff.2 hpeek
    exact .inr ⟨_, _, step_sread_unread h evs h16 hpeek rest, step_sread_unread h' evs h16 (hparams ▸ hpeek) rest⟩

/-- With no SREAD pending, or equal string memories, a step that one block takes is the other's too, and leaves it so. -/
theorem step_alike {op : MicroOp} {rest : List MicroOp} {t : State} (hmem : plain (op :: rest) ∨ s.mem = s'.mem)
    (hstep : step (performed s evs (op :: rest)) = .next t) :
    ∃ evs' ops', t = performed s evs' ops' ∧ step (performed s' evs (op :: rest)) = .next (performed s' evs' ops') ∧
      (plain ops' ∨ s.mem = s'.mem) := by
  cases hop : isSread op with
  | false =>
    rw [step_plain_performed h evs hop] at hstep
    cases hstep
    exact ⟨_, _, rfl, step_plain_performed h' evs hop rest, hmem.imp_left (fun hp o ho => hp o (List.mem_cons_of_mem _ ho))⟩
  | true =>
    have hsame : s.mem = s'.mem := hmem.resolve_left fun hp => by simp [hp op List.mem_cons_self] at hop
    cases op with
    | wscl v => cases hop
    | wsda v => cases hop
    | hold d => cases hop
    | sread p i =>
      rcases step_sread_alike h h' hparams evs hsame p i rest with ⟨r, e⟩ | ⟨evs', ops', e, e'⟩
      · exact nomatch e.symm.trans hstep
      · exact ⟨evs', ops', Host.Outcome.next.inj (hstep.symm.trans e), e', .inr hsame⟩

/-- The two blocks run in step: each number of steps that the one takes the other takes, to the same mode and with the same
events. -/
theorem run_alike {n : Nat} {ops : List MicroOp} {u : State} (hmem : plain ops ∨ s.mem = s'.mem)
    (hrun : runSteps n (performed s evs ops) = .next u) :
    ∃ u' evs', runSteps n (performed s' evs ops) = .next u' ∧ u'.mode = u.mode ∧ u.trace = s.trace ++ evs' ∧
      u'.trace = s'.trace ++ evs' := by
  induction n generalizing evs ops with
  | zero =>
    cases hrun
    exact ⟨_, evs, runSteps_zero _, h'.mode.trans h.mode.symm, rfl, rfl⟩
  | succ n ih =>
    cases ops with
    | nil =>
      rw [run_done_waits h] at hrun
      cases hrun
      refine ⟨_, evs ++ [.done], run_done_waits h' evs n, rfl, ?_, ?_⟩
      · exact List.append_assoc s.trace evs [.done]
      · exact List.append_assoc s'.trace evs [.done]
    | cons op rest =>
      obtain ⟨t, hstep, hrest⟩ := exists_step_of_runSteps_succ hrun
      obtain ⟨evs', ops', rfl, hstep', hmem'⟩ := step_alike h h' hparams evs hmem hstep
      rw [runSteps_succ hstep']
      exact ih evs' hmem' hrest

end

/-- Settles O56: both blocks accept the same expansion, and from there run in step. -/
theorem noRetainedState : Obligations.NoRetainedState := by
  intro i s s' t t' hs hs' hparams hexec hexec'
  obtain rfl := Host.Outcome.next.inj ((exec_ready i hs).symm.trans hexec)
  obtain rfl := Host.Outcome.next.inj ((exec_ready i hs').symm.trans hexec')
  have hops : expand s.params i = expand s'.params i := congrArg (expand · i) hparams
  refine ⟨hops, fun n u ha ha' hmem hrun => ?_⟩
  have hreads : plain (expand s.params i) ∨ s.mem = s'.mem := by
    cases hi : readsString i with
    | false => exact .inl (plain_expand _ hi)
    | true => exact .inr (hmem hi)
  rw [← performed_accept] at hrun
  obtain ⟨u', evs, hrun', hmode, htrace, htrace'⟩ :=
    run_alike (alone_accept hs ha _ _) (alone_accept hs' ha' (encode i) (expand s'.params i)) hparams [] hreads hrun
  rw [hops, performed_accept] at hrun'
  refine ⟨u', .cmd (encode i) :: evs, hrun', hmode, ?_, ?_⟩
  · rw [htrace, State.accept_trace, List.append_assoc, List.singleton_append]
  · rw [htrace', State.accept_trace, List.append_assoc, List.singleton_append]

end Sys2Proof.Machine
end

section
/-! PROOFS. Exceptions (60_exceptions R201, R203, R214): who sets FAULT and what it records, what a faulted block still does, and
what a hold leaves unchanged. -/

namespace Sys2Proof.Machine

/-- A form of a step that sets FAULT is the refusal of a word: the mark holds that word, and the reason of its mode. -/
theorem issue_of_becomes_faulted {s t : State} {m : FaultMark} (hst : BlockStep s t) (hs : s.fault = none)
    (ht : t.fault = some m) :
    ∃ w, s.agenda.head? = some (.issue w) ∧ m.info = w ∧
      ((m.reason = .illegalCmd ∧ s.mode = .idle ∧ ∃ r, decode w = .error r) ∨ (m.reason = .cmdWhileBusy ∧ s.mode = .busy)) := by
  cases hst with
  | faults w r e hw hf hr =>
    obtain rfl := Option.some.inj ht
    exact ⟨w, hw, rfl, hr.symm⟩
  | resets e hr => exact nomatch ht
  | waits e => exact nomatch hs.symm.trans ht
  | accepts w i e hw hi hready => exact nomatch hs.symm.trans ht
  | completes e hturn hf hm hp => exact nomatch hs.symm.trans ht
  | performs op rest e hturn hf hm hp hop => exact nomatch hs.symm.trans ht
  | endsString p i rest es e hf hm hp hes => exact nomatch hs.symm.trans ht
  | continuesString p i j rest a c e hf hm hp => exact nomatch hs.symm.trans ht

/-- Settles O16: the issue step's cases set each fault, and of the forms of a step only the refusal of a word sets one. -/
theorem modelFaultsRecordTheWord : Obligations.ModelFaultsRecordTheWord := by
  refine ⟨rfl, rfl, fun s w rest ha hf => ?_, fun s t m h => issue_of_becomes_faulted (blockStep_of_step h)⟩
  obtain ⟨-, hbusy, hillegal, -⟩ := hostIssueStep s w rest ha
  constructor
  · rintro ⟨r, hr⟩ hm
    exact ⟨_, hillegal hf hm r hr, rfl⟩
  · intro hm
    exact ⟨_, hbusy hf hm, rfl⟩

/-- A step of a faulted block, other than reset, changes the environment alone. -/
theorem within_of_blockStep_faulted {s t : State} {m : FaultMark} (hst : BlockStep s t) (hm : s.fault = some m)
    (hr : s.agenda.head? ≠ some .reset) : ∃ e, t = s.within e := by
  cases hst with
  | waits e => exact ⟨e, rfl⟩
  | resets e h => exact absurd h hr
  | accepts w i e hw hi hready => exact nomatch hready.1.symm.trans hm
  | faults w r e hw hf hr => exact nomatch hf.symm.trans hm
  | completes e hturn hf hbusy hp => exact nomatch hf.symm.trans hm
  | performs op rest e hturn hf hbusy hp hop => exact nomatch hf.symm.trans hm
  | endsString p i rest es e hf hbusy hp hes => exact nomatch hf.symm.trans hm
  | continuesString p i j rest a c e hf hbusy hp => exact nomatch hf.symm.trans hm

theorem step_halted {s : State} {m : FaultMark} (ht : sequencerMoves s) (hm : s.fault = some m) :
    step s = .fault (.halted m) := by
  rw [step_sequencerMoves ht]
  simp [sequencerStep, hm]

/-- Settles O18: a faulted block halts at its turn, ignores a word, and changes only its environment until reset. -/
theorem faultedBlockStops : Obligations.FaultedBlockStops := by
  intro s m hm
  have hfault : s.fault ≠ none := by simp [hm]
  refine ⟨fun ht => step_halted ht hm, fun w rest ha => ?issue, fun t h hr => ?frame, ?ended, fun rest ha => ?reset⟩
  case issue =>
    rw [step_issue ha]
    exact issueWord_faulted w hfault
  case frame =>
    obtain ⟨e, rfl⟩ := within_of_blockStep_faulted (blockStep_of_step h) hm hr
    exact ⟨rfl, rfl, rfl, rfl, rfl, rfl⟩
  case ended =>
    rintro ⟨-, -, hnone, -⟩
    exact hfault hnone
  case reset => exact ⟨_, step_reset ha, rfl, rfl, rfl⟩

/-- Settles O13: a hold at PEND's head is performed, whichever move gives the sequencer its turn. -/
theorem holdOnlyEmits : Obligations.HoldOnlyEmits :=
  fun _ _ _ ht hf hm hp => step_perform ht hf hm hp

end Sys2Proof.Machine
end

section
/-! PROOFS. The block after reset: IDLE with nothing pending, no fault and no move to come, so its turn is a wait
(70_reset_and_hazards R230). -/

namespace Sys2Proof.Machine

/-- An ended run stays as it is. -/
theorem step_of_endedWell {s : State} (h : endedWell s) : step s = .next s := by
  obtain ⟨hm, -, hf, ha⟩ := h
  rw [← runSteps_one, runSteps_idle ha hf hm]

theorem endedWell_resetOf (p : Params) : endedWell (State.resetOf p) :=
  ⟨State.resetOf_mode p, State.resetOf_pend p, State.resetOf_fault p, State.resetOf_agenda p⟩

/-- Settles O23: the state after reset is one in which a run has ended well, and such a state waits. -/
theorem resetWaits : Obligations.ResetWaits :=
  fun p => ⟨step_of_endedWell (endedWell_resetOf p), endedWell_resetOf p⟩

end Sys2Proof.Machine
end

section
/-! PROOFS. The table of minimum durations (70_reset_and_hazards R243), from the sums of the holds of each part. -/

namespace Sys2Proof.Machine

/-- Off the display positioning does nothing (42_lcd_commands R157). -/
theorem opsEvents_gotoOps_of_offDisplay {col row : Byte} (h : onDisplay col row = false) : opsEvents (gotoOps col row) = [] := by
  rw [gotoOps_of_offDisplay (mt (onDisplay_iff col row).2 (Bool.eq_false_iff.1 h)), opsEvents_nil]

/-- Settles O58: each row is the sum of the holds of its parts; positioning adds its own on the display and nothing off it. -/
theorem minimumDurations : Obligations.MinimumDurations := by
  intro α _ τ b x c col row rs p s q cs d
  have hon (h : onDisplay col row = true) : holdSum τ (opsEvents (gotoOps col row)) = cmdMin τ + τ.named .gotoPost :=
    (holdSum_gotoOps τ col row).trans (if_pos h)
  refine ⟨holdSum_frame τ b, holdSum_nib τ x rs, holdSum_chr τ c, holdSum_cmd τ c, holdSum_initOps τ p, hon, fun h => ?goto,
    holdSum_stringEvents τ s q cs d, fun h => ?charOn, fun h => ?stringOn, fun h => ?charOff, fun h => ?stringOff⟩
  case goto => rw [opsEvents_gotoOps_of_offDisplay h, holdSum, List.map_nil, List.sum_nil]
  case charOn => rw [holdSum_append, hon h, holdSum_chr]
  case stringOn => rw [holdSum_append, hon h, holdSum_stringEvents]
  case charOff => rw [opsEvents_gotoOps_of_offDisplay h, List.nil_append, holdSum_chr]
  case stringOff => rw [opsEvents_gotoOps_of_offDisplay h, List.nil_append, holdSum_stringEvents]

end Sys2Proof.Machine
end

section
/-! PROOFS. The table of counts (70_reset_and_hazards R244). Counts add over parts that each leave no frame open, so each row is
the sum of the counts of a frame, of single holds and of single reads. -/

namespace Sys2Proof.Machine

/-- Counts of two parts together. -/
def Counts.add (m n : Counts) : Counts where
  frames := m.frames + n.frames
  writes := m.writes + n.writes
  holds := m.holds + n.holds
  reads := m.reads + n.reads
  events := m.events + n.events

theorem Counts.add_assoc (k m n : Counts) : (k.add m).add n = k.add (m.add n) := by
  simp only [Counts.add, Nat.add_assoc]

/-- The events xs add the counts m to those of any events after them, counted from the lines that xs leave. -/
def addsCounts (m : Counts) (xs : List Event) : Prop :=
  ∀ ls ys, countsOf ls (xs ++ ys) = m.add (countsOf (linesAfterAll ls xs) ys)

section
variable {m n : Counts} {xs ys : List Event}

theorem addsCounts_nil : addsCounts ⟨0, 0, 0, 0, 0⟩ [] := fun ls ys => by
  simp [Counts.add, linesAfterAll]

/-- Parts one after the other add the counts of each. -/
theorem addsCounts_append (hx : addsCounts m xs) (hy : addsCounts n ys) : addsCounts (m.add n) (xs ++ ys) := fun ls zs => by
  rw [List.append_assoc, hx, hy, linesAfterAll_append, Counts.add_assoc]

/-- With nothing after them, the events have the counts they add and the two events `Cmd` and `Done`. -/
theorem countsOf_of_addsCounts (hx : addsCounts m xs) (ls : Lines) : countsOf ls xs = m.add ⟨0, 0, 0, 0, 2⟩ := by
  rw [← List.append_nil xs, hx]
  rfl

/-- Events add their own counts, where their frames are all decoded whatever follows. -/
theorem addsCounts_of_frames {k : Nat}
    (hframes : ∀ ls ys, (payloads ls (xs ++ ys)).length = k + (payloads (linesAfterAll ls xs) ys).length) :
    addsCounts ⟨k, xs.countP isLineEvent, xs.countP isHoldEvent, xs.countP isReadEvent, xs.length⟩ xs := fun ls ys => by
  simp only [countsOf, Counts.add, hframes, List.countP_append, List.length_append, Nat.add_assoc]

end

/-! ### The parts -/

/-- A hold is no wire event. -/
theorem addsCounts_hold (d : Duration) : addsCounts ⟨0, 0, 1, 0, 1⟩ (opsEvents [.hold d]) :=
  addsCounts_of_frames fun _ _ => (Nat.zero_add _).symm

/-- A read is no wire event. -/
theorem addsCounts_read (a : Nat) (c : Byte) : addsCounts ⟨0, 0, 0, 1, 1⟩ [.read a c] :=
  addsCounts_of_frames fun _ _ => (Nat.zero_add _).symm

/-- A frame (40_transport R105). -/
theorem addsCounts_frame (b : Byte) : addsCounts ⟨1, 67, 65, 0, 132⟩ (opsEvents (frame b)) := by
  obtain ⟨-, hwrites, hholds, -⟩ := frameCounts b
  have hreads : (opsEvents (frame b)).countP isReadEvent = 0 := countP_frame (k := 0) (fun _ _ => rfl) b
  have hlength : (opsEvents (frame b)).length = 132 := (length_opsEvents (frame_plain b)).trans (length_frame b)
  have h := addsCounts_of_frames (xs := opsEvents (frame b)) (k := 1) fun ls ys => by
    rw [payloads_frame_append, linesAfterAll_frame, List.length_cons, Nat.add_comm]
  rwa [hwrites, hholds, hreads, hlength] at h

/-- A nibble is four frames and two holds (41_nibble R132). -/
theorem addsCounts_nib (x : Byte) (rs : BitVec 1) : addsCounts ⟨4, 268, 262, 0, 530⟩ (opsEvents (nib x rs)) := by
  simp only [nib, opsEvents_append]
  exact addsCounts_append (addsCounts_append (addsCounts_append (addsCounts_append (addsCounts_append (addsCounts_frame _)
    (addsCounts_frame _)) (addsCounts_frame _)) (addsCounts_hold _)) (addsCounts_frame _)) (addsCounts_hold _)

/-- A character write is a hold and two nibbles (42_lcd_commands R151). -/
theorem addsCounts_chr (c : Byte) : addsCounts ⟨8, 536, 525, 0, 1061⟩ (opsEvents (chr c)) := by
  simp only [chr, opsEvents_append]
  exact addsCounts_append (addsCounts_append (addsCounts_hold _) (addsCounts_nib _ _)) (addsCounts_nib _ _)

/-- A command write is two holds and two nibbles (42_lcd_commands R153). -/
theorem addsCounts_cmd (c : Byte) : addsCounts ⟨8, 536, 526, 0, 1062⟩ (opsEvents (cmd c)) := by
  simp only [cmd, opsEvents_append]
  exact addsCounts_append (addsCounts_append (addsCounts_append (addsCounts_hold _) (addsCounts_nib _ _)) (addsCounts_hold _))
    (addsCounts_nib _ _)

/-- Initialize is a hold and five command writes (42_lcd_commands R155). -/
theorem addsCounts_initOps (p : Params) : addsCounts ⟨40, 2680, 2631, 0, 5311⟩ (opsEvents (initOps p)) := by
  simp only [initOps_eq, opsEvents_append]
  exact addsCounts_append (addsCounts_append (addsCounts_append (addsCounts_append (addsCounts_append (addsCounts_hold _)
    (addsCounts_cmd _)) (addsCounts_cmd _)) (addsCounts_cmd _)) (addsCounts_cmd _)) (addsCounts_cmd _)

/-- Positioning on the display is a command write and a hold (42_lcd_commands R157). -/
theorem addsCounts_gotoOps {col row : Byte} (h : onDisplay col row = true) :
    addsCounts ⟨8, 536, 527, 0, 1063⟩ (opsEvents (gotoOps col row)) := by
  obtain ⟨hrow, hcol⟩ := (onDisplay_iff col row).1 h
  rw [gotoOps_of_onDisplay hrow hcol, opsEvents_append]
  exact addsCounts_append (addsCounts_cmd _) (addsCounts_hold _)

/-! ### Strings (42_lcd_commands R159) -/

/-- Each character of a string is a read and a character write. -/
theorem addsCounts_charEvents (q : Addr) (k : Nat) (cs : List Byte) :
    addsCounts ⟨8 * cs.length, 536 * cs.length, 525 * cs.length, cs.length, 1062 * cs.length⟩ (charEvents q k cs) := by
  induction cs generalizing k with
  | nil => exact addsCounts_nil
  | cons c cs ih =>
    have hchar : addsCounts ⟨8, 536, 525, 1, 1062⟩ ([.read (q.toNat + k) c] ++ opsEvents (chr c)) :=
      addsCounts_append (addsCounts_read _ c) (addsCounts_chr c)
    have hchars : addsCounts _ (charEvents q k (c :: cs)) := addsCounts_append hchar (ih (k + 1))
    convert hchars using 1
    simp only [Counts.add, Counts.mk.injEq, List.length_cons]
    omega

/-- The counts of a string whose characters are followed by one more read. -/
theorem countsOf_charEvents_read (q : Addr) (cs : List Byte) (a : Nat) (c : Byte) (ls : Lines) :
    countsOf ls (charEvents q 0 cs ++ [.read a c]) =
      ⟨8 * cs.length, 536 * cs.length, 525 * cs.length, cs.length + 1, 1062 * cs.length + 3⟩ :=
  countsOf_of_addsCounts (addsCounts_append (addsCounts_charEvents q 0 cs) (addsCounts_read a c)) ls

section
variable (s : State) (q : Addr) {cs : List Byte} (d : Byte) (ls : Lines)

/-- A string that ends before its 16th character reads its terminator. -/
theorem countsOf_stringEvents_short (h : cs.length < 16) : countsOf ls (stringEvents s q cs d) =
    ⟨8 * cs.length, 536 * cs.length, 525 * cs.length, cs.length + 1, 1061 * cs.length + cs.length + 3⟩ := by
  rw [stringEvents, if_pos h, countsOf_charEvents_read, ← Nat.succ_mul]

/-- After 16 characters one more byte is read where P_STR_PEEK16 holds, and none otherwise. -/
theorem countsOf_stringEvents_full (h : cs.length = 16) : countsOf ls (stringEvents s q cs d) =
    ⟨128, 8576, 8400, if s.params.strPeek16 then 17 else 16, if s.params.strPeek16 then 16995 else 16994⟩ := by
  rw [stringEvents, if_neg (Nat.not_lt.2 h.ge)]
  split_ifs
  · rw [countsOf_charEvents_read, h]
  · rw [List.append_nil, countsOf_of_addsCounts (addsCounts_charEvents q 0 cs), h]
    rfl

end

/-! ### The table -/

/-- Settles O60: each row from the counts its events add; positioning adds its own on the display and nothing off it. -/
theorem eventCounts : Obligations.EventCounts := by
  intro ls b x c col row rs p s q cs d
  have hchr (ls : Lines) : countsOf ls (opsEvents (chr c)) = ⟨8, 536, 525, 0, 1063⟩ :=
    countsOf_of_addsCounts (addsCounts_chr c) ls
  refine ⟨countsOf_of_addsCounts (addsCounts_frame b) ls, countsOf_of_addsCounts (addsCounts_nib x rs) ls, hchr ls,
    countsOf_of_addsCounts (addsCounts_cmd c) ls, countsOf_of_addsCounts (addsCounts_initOps p) ls,
    fun h => countsOf_of_addsCounts (addsCounts_gotoOps h) ls, fun h => ?gotoOff,
    fun h => countsOf_stringEvents_short s q d ls h, fun h => countsOf_stringEvents_full s q d ls h,
    fun h => ?charOn, fun h hlen => ?shortOn, fun h hlen => ?fullOn, fun h => ?off⟩
  case gotoOff =>
    rw [opsEvents_gotoOps_of_offDisplay h]
    rfl
  case charOn =>
    rw [addsCounts_gotoOps h, hchr]
    rfl
  case shortOn =>
    rw [addsCounts_gotoOps h, countsOf_stringEvents_short s q d _ hlen]
    simp only [Counts.add, Nat.zero_add]
  case fullOn =>
    rw [addsCounts_gotoOps h, countsOf_stringEvents_full s q d _ hlen]
    simp only [Counts.add, Nat.zero_add]
  case off =>
    rw [opsEvents_gotoOps_of_offDisplay h]
    exact ⟨hchr ls, rfl⟩

end Sys2Proof.Machine
end
